-- ==== Sys2Proof/Word.lean ====
section
/-!
DEFINITION. The word and byte types: every CP15 register and every ARM core register is 32 bits wide, bit 0 least
significant (00_scope.md R5, 10_state.md R20).
-/
namespace Sys2Proof

/-- A 32-bit register value, address or instruction word (R5). -/
abbrev Word := BitVec 32

/-- One byte of instruction memory. -/
abbrev Byte := BitVec 8

end Sys2Proof
end

