-- ==== Sys2Proof/Config.lean ====
section
/-!
DEFINITION. What an implementation fixes (00_scope.md section 5, R4) and the free values (R7 `draw_N`). The record
`Config` is carried in the state as plain data, so that a claim quantifies over every parameter (log entry 1).
-/
namespace Sys2Proof

/-- `MEMSYS` (00_scope.md section 5). -/
inductive MemSys where
  | mmu | pu | none
deriving DecidableEq, Repr

/-- `HAS_CACHE` (00_scope.md section 5, 20_memory.md R88). -/
inductive CacheKind where
  | none | unified | separate
deriving DecidableEq, Repr

/-- `ENDIAN_SUPPORT` (00_scope.md section 5, 10_state.md R48). -/
inductive EndianSupport where
  | both | littleOnly | bigOnly
deriving DecidableEq, Repr

/-- The kinds of control bit (10_state.md R73): holds what is written, reads as 0, reads as 1. -/
inductive BitKind where
  | rw | fixed0 | fixed1
deriving DecidableEq, Repr

/-- A byte order (20_memory.md R81). -/
inductive ByteOrder where
  | little | big
deriving DecidableEq, Repr

/-- The sixteen control bits of register 1, bit 0 first (10_state.md R41 to R56, R73). -/
inductive ControlBit where
  | m | a | c | w | p | d | l | b | s | r | f | z | i | v | pr | l4
deriving DecidableEq, Repr

/-- The causes of a memory access fault, in order of decreasing priority (60_exceptions.md R202, R203). The last one is
the fifteenth row of the table known from general knowledge (90_conflicts.md C5, 93 G9), PRESUMED, log entry 22. -/
inductive FaultCause where
  /-- 1: terminal exception. -/
  | terminal
  /-- 2: exception on access to the interrupt vectors. -/
  | vector
  /-- 3: address alignment. -/
  | alignment
  /-- 4: first-level translation table access fault. -/
  | firstLevelAccess
  /-- 5: second-level translation table access fault. -/
  | secondLevelAccess
  /-- 6: section-based address translation fault. -/
  | sectionTranslation
  /-- 7: page-based address translation fault. -/
  | pageTranslation
  /-- 8: domain control fault in a section-based access. -/
  | sectionDomain
  /-- 9: domain control fault in a page-based access. -/
  | pageDomain
  /-- 10: access permission fault in a section-based access. -/
  | sectionPermission
  /-- 11: access permission fault in a page-based access. -/
  | pagePermission
  /-- 12: section-based external memory fault on a cache line fetch. -/
  | sectionLineFetch
  /-- 13: page-based external memory fault on a cache line fetch. -/
  | pageLineFetch
  /-- 14: section-based non-line-fetch external memory fault. -/
  | sectionNonLineFetch
  /-- 15, absent from the source: page-based non-line-fetch external memory fault. -/
  | pageNonLineFetch
deriving DecidableEq, Repr

/-- A status code, with the positions the table prints as `x` (60_exceptions.md R206: drawn when a fault is recorded). -/
structure FsrCode where
  bits : BitVec 4
  drawn : BitVec 4
deriving DecidableEq, Repr

/-- `FSR_CODES`: the code of each cause (60_exceptions.md R202, 92 D17); the row the source lacks may have none. -/
structure FsrCodes where
  terminal : FsrCode
  vector : FsrCode
  alignment : FsrCode
  firstLevelAccess : FsrCode
  secondLevelAccess : FsrCode
  sectionTranslation : FsrCode
  pageTranslation : FsrCode
  sectionDomain : FsrCode
  pageDomain : FsrCode
  sectionPermission : FsrCode
  pagePermission : FsrCode
  sectionLineFetch : FsrCode
  pageLineFetch : FsrCode
  sectionNonLineFetch : FsrCode
  pageNonLineFetch : Option FsrCode
deriving DecidableEq, Repr

/-- The implementation parameters `cfg` (00_scope.md section 5, R4), one field each. `lKind` and `l4Kind` are the kinds
of bits L and L4 in the versions for which R73 leaves them open (92 D30); `fetchOrder` is the model's own, the byte
order of instruction words in memory that R114 does not state (log entry 12). -/
structure Config where
  archVersion : Nat
  midrValue : Word
  ctrValue : Word
  memsys : MemSys
  hasCache : CacheKind
  cacheCanDisable : Bool
  icacheCanDisable : Bool
  hasWb : Bool
  wbCanDisable : Bool
  has26Bit : Bool
  endianSupport : EndianSupport
  hasBranchPred : Bool
  hasHivecs : Bool
  replSelectable : Bool
  replFixedRead : Bool
  fKind : BitKind
  lKind : BitKind
  l4Kind : BitKind
  hasVbar : Bool
  hasPid : Bool
  ttbLowBits : Nat
  fsrCodes : FsrCodes
  fetchOrder : ByteOrder
deriving DecidableEq, Repr

/-- The free values of `draw_N()` (00_scope.md R7): the n-th word drawn, under no law. A shorter draw takes the bits it
needs of one word. Log entry 5. -/
opaque Config.freeWord : Nat → Word

end Sys2Proof
end

