-- ==== Sys2Proof/Syntax.lean ====
section
/-!
DEFINITION. The instructions: one constructor per row of spec/opcode_table.json (30_encoding.md R118 and R119). Every
constructor carries the two fields the table leaves free in its row, `cond` (R115) and `rd` (R112 position 3); the
catch-all carries the whole operand tuple.
-/
namespace Sys2Proof

/-- The operand tuple that selects an access: direction `L` (true is `MRC`, R113), `op1`, `CRn`, `CRm`, `op2`
(30_encoding.md R112, R117). -/
structure Access where
  isRead : Bool
  op1 : BitVec 3
  crn : BitVec 4
  crm : BitVec 4
  op2 : BitVec 3
deriving DecidableEq, Repr

/-- The 22 rows of the opcode table. `cond` and `rd` are unsigned fields copied unchanged (R114). -/
inductive Instr where
  /-- `MRC p15,0,Rd,c0,c0,0`: read main ID (R130). -/
  | mrcMainId (cond rd : BitVec 4)
  /-- `MRC p15,0,Rd,c0,c0,1`: read cache type (R131). -/
  | mrcCacheType (cond rd : BitVec 4)
  /-- `MRC p15,0,Rd,c1,c0,0`: read control (R140). -/
  | mrcControl (cond rd : BitVec 4)
  /-- `MCR p15,0,Rd,c1,c0,0`: write control (R141). -/
  | mcrControl (cond rd : BitVec 4)
  /-- `MRC p15,0,Rd,c2,c0,0`: read translation table base (R150). -/
  | mrcTtb (cond rd : BitVec 4)
  /-- `MCR p15,0,Rd,c2,c0,0`: write translation table base (R151). -/
  | mcrTtb (cond rd : BitVec 4)
  /-- `MRC p15,0,Rd,c3,c0,0`: read domain access control (R152). -/
  | mrcDacr (cond rd : BitVec 4)
  /-- `MCR p15,0,Rd,c3,c0,0`: write domain access control (R153). -/
  | mcrDacr (cond rd : BitVec 4)
  /-- `MRC p15,0,Rd,c5,c0,0`: read data fault status (R160). -/
  | mrcDfsr (cond rd : BitVec 4)
  /-- `MRC p15,0,Rd,c5,c0,1`: read instruction fault status (R161). -/
  | mrcIfsr (cond rd : BitVec 4)
  /-- `MRC p15,0,Rd,c6,c0,0`: read data fault address (R162). -/
  | mrcDfar (cond rd : BitVec 4)
  /-- `MRC p15,0,Rd,c6,c0,2`: read instruction fault address (R163). -/
  | mrcIfar (cond rd : BitVec 4)
  /-- `MCR p15,0,Rd,c8,c5,0`: invalidate whole instruction TLB (R170). -/
  | mcrItlbAll (cond rd : BitVec 4)
  /-- `MCR p15,0,Rd,c8,c5,1`: invalidate one instruction TLB entry (R171). -/
  | mcrItlbEntry (cond rd : BitVec 4)
  /-- `MCR p15,0,Rd,c8,c6,0`: invalidate whole data TLB (R172). -/
  | mcrDtlbAll (cond rd : BitVec 4)
  /-- `MCR p15,0,Rd,c8,c6,1`: invalidate one data TLB entry (R173). -/
  | mcrDtlbEntry (cond rd : BitVec 4)
  /-- `MCR p15,0,Rd,c8,c7,0`: invalidate whole data and instruction TLB (R174). -/
  | mcrTlbAll (cond rd : BitVec 4)
  /-- `MCR p15,0,Rd,c8,c7,1`: invalidate one entry in data and instruction TLB (R175). -/
  | mcrTlbEntry (cond rd : BitVec 4)
  /-- `MCR p15,0,Rd,c12,c0,0`: write exception vector base (R180). -/
  | mcrVbase (cond rd : BitVec 4)
  /-- `MCR p15,0,Rd,c13,c0,0`: write process identifier (R181). -/
  | mcrPid (cond rd : BitVec 4)
  /-- `MRC p15,0,Rd,c13,c0,0`: read process identifier (R182). -/
  | mrcPid (cond rd : BitVec 4)
  /-- Any other `MRC` or `MCR` to p15 (R119). -/
  | otherAccess (cond : BitVec 4) (isRead : Bool) (op1 : BitVec 3) (crn rd : BitVec 4) (op2 : BitVec 3)
      (crm : BitVec 4)
deriving DecidableEq, Repr

end Sys2Proof
end

