-- ==== Sys2Proof/Machine/Accesses.lean ====
section
/-!
DEFINITION. The admitted accesses: the table of 30_encoding.md R118, its 21 operand tuples and the constructor each
stands for, and the fields every instruction carries.
-/
namespace Sys2Proof

/-- The tuple of an `MRC` (R113: `L` = 1). -/
def readOf (crn crm : BitVec 4) (op2 : BitVec 3) : Access := ⟨true, 0, crn, crm, op2⟩

/-- The tuple of an `MCR` (R113: `L` = 0). -/
def writeOf (crn crm : BitVec 4) (op2 : BitVec 3) : Access := ⟨false, 0, crn, crm, op2⟩

/-- The rows of R118, in its order; some operands are its inference (log entry 31). -/
def admittedRows : List (Access × (BitVec 4 → BitVec 4 → Instr)) :=
  [ (readOf 0 0 0, .mrcMainId), (readOf 0 0 1, .mrcCacheType),
    (readOf 1 0 0, .mrcControl), (writeOf 1 0 0, .mcrControl),
    (readOf 2 0 0, .mrcTtb), (writeOf 2 0 0, .mcrTtb),
    (readOf 3 0 0, .mrcDacr), (writeOf 3 0 0, .mcrDacr),
    (readOf 5 0 0, .mrcDfsr), (readOf 5 0 1, .mrcIfsr),
    (readOf 6 0 0, .mrcDfar), (readOf 6 0 2, .mrcIfar),
    (writeOf 8 5 0, .mcrItlbAll), (writeOf 8 5 1, .mcrItlbEntry),
    (writeOf 8 6 0, .mcrDtlbAll), (writeOf 8 6 1, .mcrDtlbEntry),
    (writeOf 8 7 0, .mcrTlbAll), (writeOf 8 7 1, .mcrTlbEntry),
    (writeOf 12 0 0, .mcrVbase), (writeOf 13 0 0, .mcrPid), (readOf 13 0 0, .mrcPid) ]

/-- Is the tuple one of R118's 21? -/
def Access.isListed (a : Access) : Bool := admittedRows.any fun r => r.1 == a

/-- The operand tuple of each instruction (R118, column "access"). -/
def Instr.access : Instr → Access
  | .mrcMainId _ _ => readOf 0 0 0
  | .mrcCacheType _ _ => readOf 0 0 1
  | .mrcControl _ _ => readOf 1 0 0
  | .mcrControl _ _ => writeOf 1 0 0
  | .mrcTtb _ _ => readOf 2 0 0
  | .mcrTtb _ _ => writeOf 2 0 0
  | .mrcDacr _ _ => readOf 3 0 0
  | .mcrDacr _ _ => writeOf 3 0 0
  | .mrcDfsr _ _ => readOf 5 0 0
  | .mrcIfsr _ _ => readOf 5 0 1
  | .mrcDfar _ _ => readOf 6 0 0
  | .mrcIfar _ _ => readOf 6 0 2
  | .mcrItlbAll _ _ => writeOf 8 5 0
  | .mcrItlbEntry _ _ => writeOf 8 5 1
  | .mcrDtlbAll _ _ => writeOf 8 6 0
  | .mcrDtlbEntry _ _ => writeOf 8 6 1
  | .mcrTlbAll _ _ => writeOf 8 7 0
  | .mcrTlbEntry _ _ => writeOf 8 7 1
  | .mcrVbase _ _ => writeOf 12 0 0
  | .mcrPid _ _ => writeOf 13 0 0
  | .mrcPid _ _ => readOf 13 0 0
  | .otherAccess _ isRead op1 crn _ op2 crm => ⟨isRead, op1, crn, crm, op2⟩

/-- The condition field (R115) and the register operand (R112 position 3) of an instruction. -/
def Instr.operands : Instr → BitVec 4 × BitVec 4
  | .mrcMainId c r | .mrcCacheType c r | .mrcControl c r | .mcrControl c r | .mrcTtb c r | .mcrTtb c r
  | .mrcDacr c r | .mcrDacr c r | .mrcDfsr c r | .mrcIfsr c r | .mrcDfar c r | .mrcIfar c r
  | .mcrItlbAll c r | .mcrItlbEntry c r | .mcrDtlbAll c r | .mcrDtlbEntry c r | .mcrTlbAll c r
  | .mcrTlbEntry c r | .mcrVbase c r | .mcrPid c r | .mrcPid c r => (c, r)
  | .otherAccess c _ _ _ r _ _ => (c, r)

/-- The condition field, bits [31:28] (R113). -/
def Instr.cond (i : Instr) : BitVec 4 := i.operands.1

/-- The core register the access moves, bits [15:12] (R113). -/
def Instr.rd (i : Instr) : BitVec 4 := i.operands.2

/-- The instruction of an operand tuple: R118's row where it is listed, the catch-all of R119 otherwise. -/
def Access.instr (a : Access) (cond rd : BitVec 4) : Instr :=
  match admittedRows.find? (fun r => r.1 == a) with
  | some r => r.2 cond rd
  | none => .otherAccess cond a.isRead a.op1 a.crn rd a.op2 a.crm

end Sys2Proof
end

