-- ==== Sys2Proof/WellFormed.lean ====
section
/-!
DEFINITION. Which instruction terms are instructions: the condition 0b1111 is not an `MRC`/`MCR` (30_encoding.md R115),
and the catch-all row stands only for tuples no other row lists (R117: it is tried last). `Rd` = 15 is an encoding like
any other: it is refused when executed (R120), after the privilege check.
-/
namespace Sys2Proof

/-- R115: "0b1111 is not an `MRC`/`MCR`". -/
def Instr.condOk (i : Instr) : Bool := i.cond != 0b1111

/-- R117, R119: the catch-all stands only for a tuple that is not in R118. -/
def Instr.tupleOk : Instr → Bool
  | .otherAccess _ isRead op1 crn _ op2 crm => !(Access.isListed ⟨isRead, op1, crn, crm, op2⟩)
  | .mrcMainId _ _ | .mrcCacheType _ _ | .mrcControl _ _ | .mcrControl _ _ | .mrcTtb _ _ | .mcrTtb _ _
  | .mrcDacr _ _ | .mcrDacr _ _ | .mrcDfsr _ _ | .mrcIfsr _ _ | .mrcDfar _ _ | .mrcIfar _ _
  | .mcrItlbAll _ _ | .mcrItlbEntry _ _ | .mcrDtlbAll _ _ | .mcrDtlbEntry _ _ | .mcrTlbAll _ _
  | .mcrTlbEntry _ _ | .mcrVbase _ _ | .mcrPid _ _ | .mrcPid _ _ => true

/-- A well-formed instruction. -/
def Instr.wf (i : Instr) : Bool := i.condOk && i.tupleOk

end Sys2Proof
end

