-- ==== Sys2Proof/Decode.lean ====
section
/-!
DEFINITION. The binary layout of `MRC`/`MCR` (30_encoding.md R113) and the decoder (R117): total on any word and any
bytes, refusing by name. The encoder beside it is written from the same layout.
-/
namespace Sys2Proof

/-- Why a word is no instruction of this model. -/
inductive DecodeError where
  /-- Fewer than four bytes: the instruction is one length only, 32 bits (R114). -/
  | truncated
  /-- The word is not laid out as a coprocessor register transfer (R113): the other coprocessor instructions (R116) and
  the rest of the ARM set (00_scope.md R3) are here. -/
  | notRegisterTransfer
  /-- A register transfer to a coprocessor other than 15 (00_scope.md R3). -/
  | otherCoprocessor
  /-- The condition 0b1111, which is not an `MRC`/`MCR` (R115). -/
  | conditionNever
deriving DecidableEq, Repr

/-- The layout of R113: `cond` [31:28], 0b1110 [27:24], `op1` [23:21], `L` [20], `CRn` [19:16], `Rd` [15:12],
0b1111 [11:8], `op2` [7:5], 1 [4], `CRm` [3:0]. PRESUMED, log entry 10. -/
def assemble (cond : BitVec 4) (a : Access) (rd : BitVec 4) : Word :=
  cond ++ 0b1110#4 ++ a.op1 ++ BitVec.ofBool a.isRead ++ a.crn ++ rd ++ 0b1111#4 ++ a.op2 ++ 1#1 ++ a.crm

/-- The condition field of a word. -/
def wordCond (w : Word) : BitVec 4 := w.extractLsb' 28 4

/-- The register operand of a word. -/
def wordRd (w : Word) : BitVec 4 := w.extractLsb' 12 4

/-- The operand tuple of a word (R117). -/
def wordAccess (w : Word) : Access where
  isRead := w.getLsbD 20
  op1 := w.extractLsb' 21 3
  crn := w.extractLsb' 16 4
  crm := w.extractLsb' 0 4
  op2 := w.extractLsb' 5 3

/-- R117: `w[27:24]` = 0b1110 and `w[4]` = 1, a coprocessor register transfer. -/
def isRegisterTransfer (w : Word) : Bool := w.extractLsb' 24 4 == 0b1110 && w.getLsbD 4

/-- R117: the fields of the word, looked up in R118, R119's catch-all where no row lists them. -/
def decodeWord (w : Word) : Except DecodeError Instr :=
  if !isRegisterTransfer w then .error .notRegisterTransfer
  else if w.extractLsb' 8 4 != 0b1111 then .error .otherCoprocessor
  else if wordCond w == 0b1111 then .error .conditionNever
  else .ok ((wordAccess w).instr (wordCond w) (wordRd w))

/-- The word of four bytes, the first at the lowest address, in a byte order (20_memory.md R81). -/
def joinBytes (order : ByteOrder) (b0 b1 b2 b3 : Byte) : Word :=
  match order with
  | .little => b3 ++ b2 ++ b1 ++ b0
  | .big => b0 ++ b1 ++ b2 ++ b3

/-- The four bytes of a word, the one at the lowest address first, in a byte order (20_memory.md R81). -/
def splitBytes (order : ByteOrder) (w : Word) : List Byte :=
  match order with
  | .little => [w.extractLsb' 0 8, w.extractLsb' 8 8, w.extractLsb' 16 8, w.extractLsb' 24 8]
  | .big => [w.extractLsb' 24 8, w.extractLsb' 16 8, w.extractLsb' 8 8, w.extractLsb' 0 8]

/-- The decoder on bytes: one instruction and the bytes after it. -/
def decode (order : ByteOrder) : List Byte → Except DecodeError (Instr × List Byte)
  | b0 :: b1 :: b2 :: b3 :: rest =>
    match decodeWord (joinBytes order b0 b1 b2 b3) with
    | .ok i => .ok (i, rest)
    | .error e => .error e
  | _ => .error .truncated

/-- The word of an instruction (R113). -/
def encode (i : Instr) : Word := assemble i.cond i.access i.rd

/-- The bytes of an instruction in a byte order. -/
def encodeBytes (order : ByteOrder) (i : Instr) : List Byte := splitBytes order (encode i)

/-- The word the opcode table's bits stand for: bit 0 is the word's least significant bit, bits above `nbits` are 0. -/
def tableWord (nbits w : Nat) : Word := BitVec.ofNat 32 (w % 2 ^ nbits)

/-- The instruction the decoder reads from the table's bits, laid out as bytes. -/
def decodeTableWord (nbits w : Nat) : Option Instr :=
  match decode .little (splitBytes .little (tableWord nbits w)) with
  | .ok (i, _) => some i
  | .error _ => none

end Sys2Proof
end

