-- ==== Sys2Proof/Machine/FaultTable.lean ====
section
/-!
DEFINITION. The table of memory access fault causes (60_exceptions.md R202): codes, which of the domain and the address
is recorded (R204, R205), and the priority (R203).
-/
namespace Sys2Proof

/-- A code with no `x`. -/
def FsrCode.plain (bits : BitVec 4) : FsrCode := ⟨bits, 0⟩

/-- The default `cfg.FSR_CODES`: the source's column (60_exceptions.md R202). -/
def FsrCodes.source : FsrCodes where
  terminal := .plain 0b0010
  vector := .plain 0b0000
  alignment := ⟨0b0001, 0b0010⟩
  firstLevelAccess := .plain 0b1100
  secondLevelAccess := .plain 0b1110
  sectionTranslation := .plain 0b0101
  pageTranslation := .plain 0b0111
  sectionDomain := .plain 0b1001
  pageDomain := .plain 0b1101
  sectionPermission := .plain 0b1111
  pagePermission := .plain 0b0100
  sectionLineFetch := .plain 0b0110
  pageLineFetch := .plain 0b1000
  sectionNonLineFetch := .plain 0b1010
  pageNonLineFetch := none

/-- The alternative table of general knowledge (90_conflicts.md C5, 93_implementation_defined.md G9). PRESUMED. -/
def FsrCodes.generalKnowledge : FsrCodes :=
  { FsrCodes.source with
    pageDomain := .plain 0b1011
    sectionPermission := .plain 0b1101
    pagePermission := .plain 0b1111
    sectionLineFetch := .plain 0b0100
    pageLineFetch := .plain 0b0110
    sectionNonLineFetch := .plain 0b1000
    pageNonLineFetch := some (.plain 0b1010) }

/-- `code(k)` (60_exceptions.md R200, R202). -/
def FsrCodes.code (t : FsrCodes) : FaultCause → Option FsrCode
  | .terminal => some t.terminal
  | .vector => some t.vector
  | .alignment => some t.alignment
  | .firstLevelAccess => some t.firstLevelAccess
  | .secondLevelAccess => some t.secondLevelAccess
  | .sectionTranslation => some t.sectionTranslation
  | .pageTranslation => some t.pageTranslation
  | .sectionDomain => some t.sectionDomain
  | .pageDomain => some t.pageDomain
  | .sectionPermission => some t.sectionPermission
  | .pagePermission => some t.pagePermission
  | .sectionLineFetch => some t.sectionLineFetch
  | .pageLineFetch => some t.pageLineFetch
  | .sectionNonLineFetch => some t.sectionNonLineFetch
  | .pageNonLineFetch => t.pageNonLineFetch

/-- The cause's number in R202, which is its rank (R203: priority decreases from top to bottom). -/
def FaultCause.number : FaultCause → Nat
  | .terminal => 1 | .vector => 2 | .alignment => 3 | .firstLevelAccess => 4 | .secondLevelAccess => 5
  | .sectionTranslation => 6 | .pageTranslation => 7 | .sectionDomain => 8 | .pageDomain => 9
  | .sectionPermission => 10 | .pagePermission => 11 | .sectionLineFetch => 12 | .pageLineFetch => 13
  | .sectionNonLineFetch => 14 | .pageNonLineFetch => 15

/-- `domain_valid(k)`: the domain column of R202 (R204). -/
def FaultCause.domainValid : FaultCause → Bool
  | .terminal | .vector | .alignment | .firstLevelAccess | .sectionTranslation => false
  | .secondLevelAccess | .pageTranslation | .sectionDomain | .pageDomain | .sectionPermission | .pagePermission
  | .sectionLineFetch | .pageLineFetch | .sectionNonLineFetch | .pageNonLineFetch => true

/-- `far_valid(k)`: the C6 column of R202 (R205). -/
def FaultCause.farValid : FaultCause → Bool
  | .terminal => false
  | .vector | .alignment | .firstLevelAccess | .secondLevelAccess | .sectionTranslation | .pageTranslation
  | .sectionDomain | .pageDomain | .sectionPermission | .pagePermission | .sectionLineFetch | .pageLineFetch
  | .sectionNonLineFetch | .pageNonLineFetch => true

/-- R203: of the causes whose conditions one access meets, the one highest in the table. -/
def FaultCause.highest (first : FaultCause) (others : List FaultCause) : FaultCause :=
  others.foldl (fun best k => if k.number < best.number then k else best) first

end Sys2Proof
end

