-- ==== Sys2Proof/Machine/Configuration.lean ====
section
/-!
DEFINITION. Which configurations a model admits (10_state.md R25, R32), what a configuration says of the reserved
fields (R75), and the configuration the model's reset state names (log entry 2).
-/
namespace Sys2Proof

/-- R25: the layout of R23 applies exactly when MIDR[15:12] is neither 0x0 nor 0x7; other configurations are refused
(92 D19). -/
def Config.midrOk (cfg : Config) : Bool :=
  cfg.midrValue.extractLsb' 12 4 != 0x0 && cfg.midrValue.extractLsb' 12 4 != 0x7

/-- R32: `CTR.S` = 1 exactly when `HAS_CACHE` = `SEPARATE` (92 D20). -/
def Config.ctrOk (cfg : Config) : Bool := (cfg.ctrValue.getLsbD 24 == (cfg.hasCache == .separate))

/-- The configurations a model takes (log entry 27). -/
def Config.valid (cfg : Config) : Bool := cfg.midrOk && cfg.ctrOk

/-- The mask of the low bits of register 2 that are not base address (10_state.md R58, `TTB_LOW_BITS`; log entry
25). -/
def Config.ttbLowMask (cfg : Config) : Word := BitVec.ofNat 32 (2 ^ cfg.ttbLowBits - 1)

/-- The spec's example configuration cfgA (95_test_vectors.md Part 2). DESIGN CHOICE, log entry 2: it is the one the
model's reset state names. -/
def Config.exampleA : Config where
  archVersion := 5
  midrValue := 0x41129200
  ctrValue := 0x0D172172
  memsys := .mmu
  hasCache := .separate
  cacheCanDisable := true
  icacheCanDisable := true
  hasWb := true
  wbCanDisable := true
  has26Bit := false
  endianSupport := .both
  hasBranchPred := false
  hasHivecs := true
  replSelectable := true
  replFixedRead := false
  fKind := .fixed0
  lKind := .fixed1
  l4Kind := .rw
  hasVbar := true
  hasPid := true
  ttbLowBits := 14
  fsrCodes := .source
  fetchOrder := .little

end Sys2Proof
end

