-- ==== Sys2Proof/Machine/Flags.lean ====
section
/-!
DEFINITION. The control bits of register 1 as functions of the configuration (10_state.md R73), and the words built
from them. CP15 has no condition flags and no access writes any (every rule of 40_c0_id.md to 45_c12_c13_vector_pid.md:
"Flags written: none"); the control bits are the one place of the spec where bits are computed one by one.
-/
namespace Sys2Proof

/-- The bit's number in register 1 (10_state.md R41 to R56). -/
def ControlBit.index : ControlBit → Nat
  | .m => 0 | .a => 1 | .c => 2 | .w => 3 | .p => 4 | .d => 5 | .l => 6 | .b => 7
  | .s => 8 | .r => 9 | .f => 10 | .z => 11 | .i => 12 | .v => 13 | .pr => 14 | .l4 => 15

/-- The sixteen bits in order of their numbers. -/
def ControlBit.all : List ControlBit :=
  [.m, .a, .c, .w, .p, .d, .l, .b, .s, .r, .f, .z, .i, .v, .pr, .l4]

/-- `rw` where the condition holds, the given fixed kind otherwise. -/
def rwWhen (held : Bool) (otherwise : BitKind) : BitKind := if held then .rw else otherwise

/-- The kind of each control bit (10_state.md R73, row by row). -/
def Config.kind (cfg : Config) : ControlBit → BitKind
  | .m => rwWhen (cfg.memsys != .none) .fixed0
  | .a => .rw
  | .c => if cfg.hasCache = .none then .fixed0 else rwWhen cfg.cacheCanDisable .fixed1
  | .w => if cfg.hasWb then rwWhen cfg.wbCanDisable .fixed1 else .fixed0
  | .p => rwWhen cfg.has26Bit .fixed1
  | .d => rwWhen cfg.has26Bit .fixed1
  | .l => if cfg.archVersion ≤ 3 then .rw else cfg.lKind
  | .b => match cfg.endianSupport with
    | .both => .rw
    | .littleOnly => .fixed0
    | .bigOnly => .fixed1
  | .s => .rw
  | .r => .rw
  | .f => cfg.fKind
  | .z => rwWhen cfg.hasBranchPred .fixed0
  | .i => if cfg.hasCache = .separate then rwWhen cfg.icacheCanDisable .fixed1 else .fixed0
  | .v => rwWhen cfg.hasHivecs .fixed0
  | .pr => if cfg.replSelectable then .rw else if cfg.replFixedRead then .fixed1 else .fixed0
  | .l4 => if 5 ≤ cfg.archVersion then .rw else cfg.l4Kind

/-- The 16-bit word with a one at each control bit that satisfies `f`. -/
def controlBitsWhere (f : ControlBit → Bool) : BitVec 16 :=
  ControlBit.all.foldr (fun bit acc => (if f bit then BitVec.twoPow 16 bit.index else 0) ||| acc) 0

/-- The control bits that hold what is written (R73 `rw`). -/
def Config.rwMask (cfg : Config) : BitVec 16 := controlBitsWhere fun bit => cfg.kind bit == .rw

/-- The values of the fixed control bits (R73: 0 for `fixed0`, 1 for `fixed1`), zero at `rw` positions. -/
def Config.fixedOnes (cfg : Config) : BitVec 16 := controlBitsWhere fun bit => cfg.kind bit == .fixed1

/-- Field insertion (00_scope.md R9): the bits of `new` where `mask` has a one, the bits of `old` elsewhere. -/
def mergeBits {w : Nat} (mask new old : BitVec w) : BitVec w := (new &&& mask) ||| (old &&& ~~~mask)

/-- Register 1's sixteen control bits as a read sees them, from the held bits (41_c1_control.md R140: `CP15.C1[i]` where
the kind is `rw`, `fixedval(i)` otherwise). -/
def Config.controlValue (cfg : Config) (held : BitVec 16) : BitVec 16 := mergeBits cfg.rwMask held cfg.fixedOnes

end Sys2Proof
end

