-- ==== Sys2Proof/Machine/State.lean ====
section
/-!
DEFINITION. The state (10_state.md R76 and section 9), the ways a step stops, and the machine right after reset.
-/
namespace Sys2Proof.Machine

/-- An entry of a translation look-aside buffer: the set of virtual addresses it covers (10_state.md R64), as a union of
inclusive ranges (log entry 16). -/
structure TlbEntry where
  ranges : List (Word × Word)
deriving DecidableEq, Repr

/-- A translation look-aside buffer: a finite set of entries (10_state.md R64), as a list with no repeats. -/
abbrev Tlb := List TlbEntry

/-- A fault status register: the eight bits it holds (10_state.md R62). -/
structure Fsr where
  domain : BitVec 4
  status : BitVec 4
deriving DecidableEq, Repr

/-- The registers with a reserved field (10_state.md R75). -/
inductive ReservedReg where
  | c1 | ttb | dfsr | ifsr | vbase | pid
deriving DecidableEq, Repr

/-- `CP15.last_read[r]` (10_state.md R75): the word the most recent `MRC` of the register returned. Register 12 has no
read form, so its ghost is always none and takes no field (90_conflicts.md C7). -/
structure LastRead where
  c1 : Option Word
  ttb : Option Word
  dfsr : Option Word
  ifsr : Option Word
  pid : Option Word
deriving DecidableEq, Repr

/-- The controls whose moment of effect is open (20_memory.md R96). -/
inductive Control where
  | c1 | ttb | dacr | vbase | pid | itlb | dtlb
deriving DecidableEq, Repr

/-- The superseded values of each control that may still govern the memory system, most recent first (20_memory.md R96,
70_reset_and_hazards.md R235; log entry 18). -/
structure Window where
  c1 : List (BitVec 16)
  ttb : List Word
  dacr : List Word
  vbase : List (BitVec 27)
  pid : List (BitVec 7)
  itlb : List Tlb
  dtlb : List Tlb
deriving DecidableEq, Repr

/-- The state of CP15 (10_state.md R76). `MIDR` and `CTR` are the constants of the configuration (R29, R39). -/
structure Cp15 where
  /-- The sixteen control bits of register 1; fixed bits stand at their fixed values (R73, R74). -/
  c1 : BitVec 16
  /-- Register 2; the low `TTB_LOW_BITS` bits hold no state and stand at 0 (R58, R75). -/
  ttb : Word
  /-- Register 3, sixteen domain fields of two bits (R59). -/
  dacr : Word
  /-- Register 5, opcode2 = 0 (R61). -/
  dfsr : Fsr
  /-- Register 5, opcode2 = 1 (R61). -/
  ifsr : Fsr
  /-- Register 6, opcode2 = 0 (R63). -/
  dfar : Word
  /-- Register 6, opcode2 = 2 (R63). -/
  ifar : Word
  /-- The instruction TLB (R64). -/
  itlb : Tlb
  /-- The data TLB (R64). -/
  dtlb : Tlb
  /-- Register 12, bits [31:5] (R65). -/
  vbase : BitVec 27
  /-- Register 13, bits [31:25] (R66). -/
  pid : BitVec 7
  /-- The ghost state of the reserved-field policy (R75). -/
  lastRead : LastRead
  /-- The model's own: what R96 leaves open (log entry 18). -/
  window : Window
deriving DecidableEq, Repr

/-- The kind of a memory access (60_exceptions.md R200, R201), which is also the kind of a TLB (10_state.md R64). -/
inductive Side where
  | data | instruction
deriving DecidableEq, Repr

/-- A step of the memory system agent (60_exceptions.md R200, 20_memory.md R89, R96). -/
inductive MemEvent where
  /-- An access of the kind, in the domain, at the address, fails with the causes listed, as far as they can arise
  (60_exceptions.md R209). -/
  | fault (side : Side) (cause : FaultCause) (others : List FaultCause) (domain : BitVec 4) (address : Word)
  /-- An entry is added to a TLB. -/
  | fill (side : Side) (entry : TlbEntry)
  /-- An entry is dropped from a TLB. -/
  | drop (side : Side) (entry : TlbEntry)
  /-- Of the superseded values of a control, all but the most recent `keep` cease to govern. -/
  | settle (control : Control) (keep : Nat)
deriving DecidableEq, Repr

/-- Whose step is next (00_scope.md R11): the core's, with its two inputs for the access (`PRIVILEGED`, R216; whether its
condition passes, R115), or the memory system agent's. Log entries 7, 8, 9. -/
inductive Turn where
  | core (privileged condPassed : Bool)
  | memSystem (event : MemEvent)
deriving DecidableEq, Repr

/-- Instruction memory: (address, byte) pairs in canonical form, addresses strictly rising (log entries 11, 13). -/
abbrev Memory := List Host.Cell

/-- The whole state. -/
structure State where
  /-- The implementation parameters, constant during a run (00_scope.md R4). -/
  cfg : Config
  /-- The ARM core registers R0 to R14 (10_state.md R70). -/
  regs : Vector Word 15
  /-- The program counter (10_state.md R71). -/
  pc : Word
  /-- `PRIVILEGED`: the access is executed in a privileged mode (60_exceptions.md R216). -/
  privileged : Bool
  /-- The core's condition check of the access passes (30_encoding.md R115, 92 D25). -/
  condPassed : Bool
  /-- The state of CP15. -/
  cp15 : Cp15
  /-- Instruction memory. -/
  mem : Memory
  /-- The model's own: the turns to come; with none listed the core moves, with its present inputs (log entry 7). -/
  turns : List Turn
  /-- The model's own: how many free words have been drawn (00_scope.md R7; log entry 5). -/
  draws : Nat
deriving DecidableEq, Repr

/-- The ways a run ends in a fault. -/
inductive Fault where
  /-- Raised by every access executed without privilege (60_exceptions.md R216, R222): the undefined instruction
  exception, carrying the instruction word. No state is changed; the core's exception entry is not described (R210),
  so the run stops here. Safe. -/
  | undefinedInstruction (word : Word)
  /-- Raised by the fetch at a program counter that is not word aligned: `MRC` and `MCR` stand at word-aligned addresses
  (10_state.md R71). Safe. -/
  | pcMisaligned
  /-- Raised by the fetch where no instruction is listed at the program counter: the end of a run
  (70_reset_and_hazards.md R238, 92 D26). Safe. -/
  | noInstruction
deriving DecidableEq, Repr

/-- The accesses and configurations without a meaning: the spec's `refuse(reason)` (00_scope.md R7), one constructor per
reason. All are safe: the run stops and no state is changed. -/
inductive Refusal where
  /-- Raised by an arm of exec that has no meaning yet. Safe. -/
  | notModelled (mnemonic : String)
  /-- Raised before everything by a configuration outside 10_state.md R25 or R32. Safe. -/
  | configuration
  /-- Raised by the fetch: the word is no access to p15 (30_encoding.md R113 to R117). Safe. -/
  | undecodable (e : DecodeError)
  /-- "Rd is R15" (30_encoding.md R120). Safe. -/
  | rdIsR15
  /-- "CP15 access not given a meaning by the source" (30_encoding.md R119). Safe. -/
  | accessWithoutMeaning
  /-- "register 0, reserved opcode2" (40_c0_id.md R132). Safe. -/
  | reservedOpcode2
  /-- "write of register 0" (40_c0_id.md R133). Safe. -/
  | writeOfRegister0
  /-- "SBZP field written with a value neither zero nor preserved" (10_state.md R75). Safe. -/
  | sbzpFieldWritten
  /-- "domain field written with the reserved value 0b10" (42_c2_c3_translation.md R153). Safe. -/
  | reservedDomainValueWritten
  /-- "write of a fault register: form not shown" (43_c5_c6_fault.md R164). Safe. -/
  | writeOfFaultRegister
  /-- "TLB operation: Rd must hold 0" (44_c8_tlb.md R170). Safe. -/
  | tlbRdNotZero
  /-- "reserved bits [4:0] of register 12 written non-zero" (45_c12_c13_vector_pid.md R180). Safe. -/
  | vbaseReservedBitsWritten
  /-- "read of register 12: form not shown" (45_c12_c13_vector_pid.md R183). Safe. -/
  | readOfRegister12
  /-- "access to a reserved CP15 register" (46_other_registers.md R190). Safe. -/
  | reservedRegister
  /-- "CP15 register named but not described by the source" (46_other_registers.md R191). Safe. -/
  | registerNotDescribed
  /-- "CP15 register 15 varies with the design" (46_other_registers.md R192). Safe. -/
  | register15
  /-- "PU form of the register not described by the source" (46_other_registers.md R193), raised by an access, and by the
  memory system agent recording a fault where there is no MMU (20_memory.md R87). Safe. -/
  | formWithoutMmu
  /-- Raised by the memory system agent for an access to a domain whose field may hold 0b10 (93 U4). Safe. -/
  | reservedDomainAccessed
  /-- Raised by the memory system agent for a cause to which `cfg.FSR_CODES` gives no code (60_exceptions.md R202). Safe. -/
  | causeWithoutCode
deriving DecidableEq, Repr

/-- No superseded value governs. -/
def Window.empty : Window := ⟨[], [], [], [], [], [], []⟩

/-- `last_read[r]` = none for every `r` (10_state.md R74). -/
def LastRead.nothing : LastRead := ⟨none, none, none, none, none⟩

/-- The CP15 state in which a run begins, from the parameter `cfg.reset` (10_state.md R74, 70_reset_and_hazards.md R231):
fixed control bits at their fixed values, bits that hold no state at 0, `last_read` none, every other value as given. -/
def Cp15.start (cfg : Config) (reset : Cp15) : Cp15 :=
  { reset with
    c1 := cfg.controlValue reset.c1
    ttb := reset.ttb &&& ~~~cfg.ttbLowMask
    lastRead := .nothing
    window := .empty }

/-- The values the model names for what the spec leaves unspecified (R74): zero, and empty TLBs (log entries 3 and 4). -/
def Cp15.zero : Cp15 where
  c1 := 0
  ttb := 0
  dacr := 0
  dfsr := ⟨0, 0⟩
  ifsr := ⟨0, 0⟩
  dfar := 0
  ifar := 0
  itlb := []
  dtlb := []
  vbase := 0
  pid := 0
  lastRead := .nothing
  window := .empty

/-- The start of a run under a configuration and a reset state of CP15 (R231): a claim about every run quantifies over
both. The core's registers and inputs are log entries 3, 4 and 9. -/
def State.start (cfg : Config) (reset : Cp15) : State where
  cfg := cfg
  regs := Vector.replicate 15 0
  pc := 0
  privileged := true
  condPassed := true
  cp15 := Cp15.start cfg reset
  mem := []
  turns := []
  draws := 0

/-- The machine right after reset: the start under cfgA (log entry 2) with the values of log entries 3 and 4. -/
def State.reset : State := State.start Config.exampleA Cp15.zero

end Sys2Proof.Machine
end

