-- ==== Sys2Proof/Machine/Operands.lean ====
section
/-!
DEFINITION. The operand forms: the core register `Rd` (10_state.md R70), which tuples a configuration admits
(30_encoding.md R117, R118), and the reason for which every other tuple is refused (R119, 46_other_registers.md).
-/
namespace Sys2Proof.Machine

/-- `x[i]` (00_scope.md R7). R15 is the program counter (10_state.md R70); no access names it (30_encoding.md R120; log entry 36). -/
def State.readX (s : State) (i : BitVec 4) : Word :=
  if h : i.toNat < 15 then s.regs[i.toNat] else s.pc

/-- `x[i] <- v` (00_scope.md R7). -/
def State.writeX (s : State) (i : BitVec 4) (v : Word) : State :=
  if h : i.toNat < 15 then { s with regs := s.regs.set i.toNat v } else { s with pc := v }

/-- What the configuration must have for a listed register (30_encoding.md R117: rows 5 to 18 need `MEMSYS` = `MMU`, row 19
`HAS_VBAR`, rows 20 and 21 `HAS_PID`; registers 0 and 1 exist in every system). -/
def registerPresent (cfg : Config) (crn : BitVec 4) : Bool :=
  if crn = 0 ∨ crn = 1 then true
  else if crn = 12 then cfg.hasVbar
  else if crn = 13 then cfg.hasPid
  else cfg.memsys == .mmu

/-- R117: the tuple is in R118 and the configuration admits it. -/
def admits (cfg : Config) (a : Access) : Bool := a.isListed && registerPresent cfg a.crn

/-- R132: `MRC p15,0,Rd,c0,c0,op2` with `op2` in 2..7. -/
def isReservedOpcode2 (a : Access) : Bool :=
  a.isRead && a.op1 == 0 && a.crn == 0 && a.crm == 0 && !(a.op2 == 0 || a.op2 == 1)

/-- R133: `MCR p15,0,Rd,c0,cM,op2`. -/
def isWriteOfRegister0 (a : Access) : Bool := !a.isRead && a.op1 == 0 && a.crn == 0

/-- R164: `MCR p15,0,Rd,c5,c0,{0,1}` and `MCR p15,0,Rd,c6,c0,{0,2}`. -/
def isWriteOfFaultRegister (a : Access) : Bool :=
  !a.isRead && a.op1 == 0 && a.crm == 0 &&
    ((a.crn == 5 && (a.op2 == 0 || a.op2 == 1)) || (a.crn == 6 && (a.op2 == 0 || a.op2 == 2)))

/-- R183: `MRC p15,0,Rd,c12,c0,0`. -/
def isReadOfRegister12 (a : Access) : Bool := a == readOf 12 0 0

/-- R190: registers 4, 11 and 14, register 12 without `HAS_VBAR`, registers 8 and 10 with a PU, in every form. -/
def isReservedRegister (cfg : Config) (crn : BitVec 4) : Bool :=
  crn == 4 || crn == 11 || crn == 14 || (crn == 12 && !cfg.hasVbar) ||
    ((crn == 8 || crn == 10) && cfg.memsys == .pu)

/-- R193: registers 2, 3, 5 and 6 without an MMU, and registers 8 and 10 with neither MMU nor PU, in every form. -/
def isFormWithoutMmu (cfg : Config) (crn : BitVec 4) : Bool :=
  ((crn == 2 || crn == 3 || crn == 5 || crn == 6) && cfg.memsys != .mmu) ||
    ((crn == 8 || crn == 10) && cfg.memsys == .none)

/-- The reason for which a tuple that is not admitted is refused: the rules about whole registers first (R190 to R193,
"in every form"), then the forms named one by one, then R119 (R194). DEDUCED, log entry 30. -/
def refusalOf (cfg : Config) (a : Access) : Refusal :=
  if isReservedRegister cfg a.crn then .reservedRegister
  else if isFormWithoutMmu cfg a.crn then .formWithoutMmu
  else if a.crn = 7 ∨ a.crn = 9 ∨ a.crn = 10 then .registerNotDescribed
  else if a.crn = 15 then .register15
  else if isReservedOpcode2 a then .reservedOpcode2
  else if isWriteOfRegister0 a then .writeOfRegister0
  else if isWriteOfFaultRegister a then .writeOfFaultRegister
  else if isReadOfRegister12 a then .readOfRegister12
  else .accessWithoutMeaning

end Sys2Proof.Machine
end

