-- ==== Sys2Proof/Machine/Ops.lean ====
section
/-!
DEFINITION. The named operations over memory, the CP15 registers, the TLBs and the free values; the checks that come
before every access (30_encoding.md R117); and the one exception an access raises (60_exceptions.md R216).
-/
namespace Sys2Proof.Machine

/-- The outcome of a step or an access. -/
abbrev Outcome := Host.Outcome State Fault Refusal

/-! ### Instruction memory (10_state.md R71; log entries 11 and 13) -/

/-- The byte listed at an address; an unlisted address has none. -/
def Memory.read (m : Memory) (a : Word) : Option Byte :=
  (m.find? fun c => c.1 == a.toNat).map Prod.snd

/-- Put a cell in its place: before the first higher address, in place of a cell at the same address. -/
def Memory.insert (a : Nat) (b : Byte) : Memory → Memory
  | [] => [(a, b)]
  | c :: rest =>
    if a < c.1 then (a, b) :: c :: rest
    else if a = c.1 then (a, b) :: rest
    else c :: Memory.insert a b rest

/-- List a byte at an address. -/
def Memory.write (m : Memory) (a : Word) (b : Byte) : Memory := Memory.insert a.toNat b m

/-- List bytes at an address and those after it, modulo 2^32. -/
def Memory.writeBytes (m : Memory) (a : Word) : List Byte → Memory
  | [] => m
  | b :: rest => Memory.writeBytes (m.write a b) (a + 1) rest

/-- The canonical form: addresses strictly rising and inside the 32-bit space (20_memory.md R80). An unlisted address has
no byte, so no cell equals what an unlisted address reads as. -/
abbrev Memory.wf (m : Memory) : Prop :=
  m.Pairwise (fun c d => c.1 < d.1) ∧ ∀ c ∈ m, c.1 < 2 ^ 32

/-! ### The core's side -/

/-- `pc <- pc + 4`, modulo 2^32 (10_state.md R71). -/
def State.advance (s : State) : State := { s with pc := s.pc + 4 }

/-- The end of a read: `x[Rd] <- v`, `pc <- pc + 4`. -/
def State.deliver (s : State) (rd : BitVec 4) (v : Word) : State := (s.writeX rd v).advance

/-- The end of a write: CP15 in its new state, `pc <- pc + 4`. -/
def State.commit (s : State) (c : Cp15) : State := ({ s with cp15 := c } : State).advance

/-- The exception an access executed without privilege raises (60_exceptions.md R216): no change of CP15, no write of
`x[Rd]`. Its entry in the core is not described (R210), so it ends the run as a fault (log entry 15). -/
def raiseUndefinedInstruction (i : Instr) : Outcome := .fault (.undefinedInstruction (encode i))

/-- The checks before every access, in the order of 30_encoding.md R117: the configuration (10_state.md R25, R32), the
privilege (60_exceptions.md R216), `Rd` = 15 (R120), the tuple and the configuration's admission of it (R118, R119);
then the meaning. -/
def admitted (i : Instr) (s : State) (meaning : Outcome) : Outcome :=
  if !s.cfg.valid then .refused .configuration
  else if !s.privileged then raiseUndefinedInstruction i
  else if i.rd = 15 then .refused .rdIsR15
  else if !admits s.cfg i.access then .refused (refusalOf s.cfg i.access)
  else meaning

/-! ### Reserved fields (10_state.md R75) -/

/-- The bits of a register that hold no state: C1[31:16], the low bits of TTB, DFSR/IFSR[31:9], register 12 [4:0],
register 13 [24:0]. -/
def reservedMask (cfg : Config) : ReservedReg → Word
  | .c1 => 0xFFFF0000
  | .ttb => cfg.ttbLowMask
  | .dfsr => 0xFFFFFE00
  | .ifsr => 0xFFFFFE00
  | .vbase => 0x0000001F
  | .pid => 0x01FFFFFF

/-- `CP15.last_read[r]`; register 12 has no read form, so it is none (90_conflicts.md C7). -/
def LastRead.get (l : LastRead) : ReservedReg → Option Word
  | .c1 => l.c1
  | .ttb => l.ttb
  | .dfsr => l.dfsr
  | .ifsr => l.ifsr
  | .vbase => none
  | .pid => l.pid

/-- `CP15.last_read[r] <- some v`. -/
def LastRead.set (l : LastRead) (r : ReservedReg) (v : Word) : LastRead :=
  match r with
  | .c1 => { l with c1 := some v }
  | .ttb => { l with ttb := some v }
  | .dfsr => { l with dfsr := some v }
  | .ifsr => { l with ifsr := some v }
  | .vbase => l
  | .pid => { l with pid := some v }

/-- The word a read of a register with a reserved field returns: the held bits, and in the reserved field bits drawn
afresh (R75; log entries 5 and 6). -/
def State.drawnWord (s : State) (r : ReservedReg) (held : Word) : Word :=
  mergeBits (reservedMask s.cfg r) (Config.freeWord s.draws) held

/-- A read of a register with a reserved field: the word of `drawnWord` goes to `last_read` and to `x[Rd]`. -/
def State.deliverDrawn (s : State) (r : ReservedReg) (held : Word) (rd : BitVec 4) : State :=
  ({ s with
      draws := s.draws + 1
      cp15 := { s.cp15 with lastRead := s.cp15.lastRead.set r (s.drawnWord r held) } } : State).deliver rd
    (s.drawnWord r held)

/-- R75: the word carries in the reserved field zero, or the bits of the word last read. -/
def State.reservedFieldOk (s : State) (r : ReservedReg) (w : Word) : Bool :=
  w &&& reservedMask s.cfg r == 0 ||
    match s.cp15.lastRead.get r with
    | some v => w &&& reservedMask s.cfg r == v &&& reservedMask s.cfg r
    | none => false

/-! ### The words of the registers -/

/-- Register 1's control bits as a read sees them, bits [31:16] zero (41_c1_control.md R140). -/
def State.controlWord (s : State) : Word := (s.cfg.controlValue s.cp15.c1).setWidth 32

/-- A fault status register's word, bits [31:9] zero: [8] is 0, [7:4] the domain, [3:0] the status (10_state.md R62). -/
def Fsr.word (f : Fsr) : Word := 0#24 ++ f.domain ++ f.status

/-- Register 13's word, bits [24:0] zero: the PID stands at [31:25] (10_state.md R66). -/
def pidWord (pid : BitVec 7) : Word := pid ++ 0#25

/-- The base address register 12 holds, a multiple of 32 bytes (10_state.md R65). -/
def vbaseWord (vbase : BitVec 27) : Word := vbase ++ 0#5

/-- A domain's field of register 3: `Dn = DACR[2n+1:2n]` (10_state.md R59). -/
def domainField (dacr : Word) (n : BitVec 4) : BitVec 2 := dacr.extractLsb' (2 * n.toNat) 2

/-- Some domain field of the word is the reserved value 0b10 (10_state.md R60). -/
def hasReservedDomain (dacr : Word) : Bool :=
  (List.range 16).any fun n => domainField dacr (BitVec.ofNat 4 n) == 0b10

/-! ### The writes. Each puts the superseded value into the window of 20_memory.md R96. -/

/-- Register 1: each `rw` bit takes the written bit, the others ignore it (41_c1_control.md R141). -/
def Cp15.writeControl (c : Cp15) (cfg : Config) (w : Word) : Cp15 :=
  { c with
    c1 := mergeBits cfg.rwMask (w.setWidth 16) c.c1
    window := { c.window with c1 := c.c1 :: c.window.c1 } }

/-- Register 2: the base takes the written bits (42_c2_c3_translation.md R151). -/
def Cp15.writeTtb (c : Cp15) (cfg : Config) (w : Word) : Cp15 :=
  { c with
    ttb := mergeBits (~~~cfg.ttbLowMask) w c.ttb
    window := { c.window with ttb := c.ttb :: c.window.ttb } }

/-- Register 3: all 32 bits (42_c2_c3_translation.md R153). -/
def Cp15.writeDacr (c : Cp15) (w : Word) : Cp15 :=
  { c with
    dacr := w
    window := { c.window with dacr := c.dacr :: c.window.dacr } }

/-- Register 12: bits [31:5] (45_c12_c13_vector_pid.md R180). -/
def Cp15.writeVbase (c : Cp15) (w : Word) : Cp15 :=
  { c with
    vbase := w.extractLsb' 5 27
    window := { c.window with vbase := c.vbase :: c.window.vbase } }

/-- Register 13: bits [31:25] (45_c12_c13_vector_pid.md R181). -/
def Cp15.writePid (c : Cp15) (w : Word) : Cp15 :=
  { c with
    pid := w.extractLsb' 25 7
    window := { c.window with pid := c.pid :: c.window.pid } }

/-! ### Translation look-aside buffers (44_c8_tlb.md) -/

/-- `covers(e, va)`: the entry is the translation of the virtual address. -/
def TlbEntry.covers (e : TlbEntry) (va : Word) : Bool :=
  e.ranges.any fun r => r.1.toNat ≤ va.toNat && va.toNat ≤ r.2.toNat

/-- The entries that do not cover the address (R171). -/
def Tlb.without (t : Tlb) (va : Word) : Tlb := t.filter fun e => !e.covers va

/-- Invalidate in the instruction TLB: its entries become those given (R170, R171). -/
def Cp15.replaceItlb (c : Cp15) (t : Tlb) : Cp15 :=
  { c with
    itlb := t
    window := { c.window with itlb := c.itlb :: c.window.itlb } }

/-- Invalidate in the data TLB: its entries become those given (R172, R173). -/
def Cp15.replaceDtlb (c : Cp15) (t : Tlb) : Cp15 :=
  { c with
    dtlb := t
    window := { c.window with dtlb := c.dtlb :: c.window.dtlb } }

/-- A whole-TLB operation: `Rd` must hold 0 (R170, R172, R174). -/
def wholeTlb (s : State) (rd : BitVec 4) (c : Cp15) : Outcome :=
  if s.readX rd = 0 then .next (s.commit c) else .refused .tlbRdNotZero

/-! ### What governs the memory system (20_memory.md R96) and what CP15 exports (41_c1_control.md R142) -/

/-- A control bit as the rest of the system sees it (R142). -/
def State.controlBit (s : State) (bit : ControlBit) : Bool :=
  (s.cfg.controlValue s.cp15.c1).getLsbD bit.index

/-- The control bit may still, or already, govern an access with the given value (R96). -/
def State.bitMayGovern (s : State) (bit : ControlBit) (v : Bool) : Bool :=
  (s.cp15.c1 :: s.cp15.window.c1).any fun c1 => (s.cfg.controlValue c1).getLsbD bit.index == v

/-- The domain's field may still, or already, govern an access with the given value (R96). -/
def State.domainMayGovern (s : State) (n : BitVec 4) (v : BitVec 2) : Bool :=
  (s.cp15.dacr :: s.cp15.window.dacr).any fun d => domainField d n == v

/-- The values CP15 exports (41_c1_control.md R142, 20_memory.md R85 and R90, 60_exceptions.md R208 and R213). -/
structure Outputs where
  control : BitVec 16
  translationTableBase : Word
  domains : Word
  vectorBase : Word
  processId : BitVec 7
deriving DecidableEq, Repr

/-- What the rest of the system sees after every write (R142; log entry 33). -/
def State.outputs (s : State) : Outputs where
  control := s.cfg.controlValue s.cp15.c1
  translationTableBase := s.cp15.ttb
  domains := s.cp15.dacr
  vectorBase := vbaseWord s.cp15.vbase
  processId := s.cp15.pid

/-- Byte order of the memory system: bit B of register 1 (20_memory.md R81). -/
def State.byteOrder (s : State) : ByteOrder := if s.controlBit .b then .big else .little

end Sys2Proof.Machine
end

