-- ==== Sys2Proof/Machine/ControlRegister.lean ====
section
/-!
DEFINITION. Register 1, the control register (41_c1_control.md).
-/
namespace Sys2Proof.Machine

/-- R140: bits [15:0] by kind, bits [31:16] drawn, the word returned goes to the ghost. -/
def execMrcControl (cond rd : BitVec 4) (s : State) : Outcome :=
  admitted (.mrcControl cond rd) s (.next (s.deliverDrawn .c1 s.controlWord rd))

/-- R141: refused unless bits [31:16] are zero or preserved; then the `rw` bits take the written bits. -/
def execMcrControl (cond rd : BitVec 4) (s : State) : Outcome :=
  admitted (.mcrControl cond rd) s
    (if s.reservedFieldOk .c1 (s.readX rd) then .next (s.commit (s.cp15.writeControl s.cfg (s.readX rd)))
     else .refused .sbzpFieldWritten)

end Sys2Proof.Machine
end

