-- ==== Sys2Proof/Machine/FaultRegisters.lean ====
section
/-!
DEFINITION. Registers 5 and 6, fault status and fault address (43_c5_c6_fault.md).
-/
namespace Sys2Proof.Machine

/-- R160: bits [31:9] drawn, [8] 0, [7:4] the domain, [3:0] the status of `CP15.DFSR`. -/
def execMrcDfsr (cond rd : BitVec 4) (s : State) : Outcome :=
  admitted (.mrcDfsr cond rd) s (.next (s.deliverDrawn .dfsr s.cp15.dfsr.word rd))

/-- R161: R160 with `IFSR` for `DFSR`. -/
def execMrcIfsr (cond rd : BitVec 4) (s : State) : Outcome :=
  admitted (.mrcIfsr cond rd) s (.next (s.deliverDrawn .ifsr s.cp15.ifsr.word rd))

/-- R162: `x[Rd] <- CP15.DFAR`. -/
def execMrcDfar (cond rd : BitVec 4) (s : State) : Outcome :=
  admitted (.mrcDfar cond rd) s (.next (s.deliver rd s.cp15.dfar))

/-- R163: `x[Rd] <- CP15.IFAR`. -/
def execMrcIfar (cond rd : BitVec 4) (s : State) : Outcome :=
  admitted (.mrcIfar cond rd) s (.next (s.deliver rd s.cp15.ifar))

end Sys2Proof.Machine
end

