-- ==== Sys2Proof/Machine/Identification.lean ====
section
/-!
DEFINITION. Register 0: the two reads of 40_c0_id.md, and the field layouts and tables of the main ID register and the
cache type register (10_state.md R23 to R38).
-/
namespace Sys2Proof.Machine

/-- R130: `x[Rd] <- cfg.MIDR_VALUE`. -/
def execMrcMainId (cond rd : BitVec 4) (s : State) : Outcome :=
  admitted (.mrcMainId cond rd) s (.next (s.deliver rd s.cfg.midrValue))

/-- R131: `x[Rd] <- cfg.CTR_VALUE`. -/
def execMrcCacheType (cond rd : BitVec 4) (s : State) : Outcome :=
  admitted (.mrcCacheType cond rd) s (.next (s.deliver rd s.cfg.ctrValue))

/-! ### Main ID register (R23) -/

/-- [31:24], the manufacturer's number (R28). -/
def midrImplementor (w : Word) : BitVec 8 := w.extractLsb' 24 8
/-- [23:20], the product sub-number (R27). -/
def midrVariant (w : Word) : BitVec 4 := w.extractLsb' 20 4
/-- [19:16], the architecture code, an opaque constant (R26). -/
def midrArchitecture (w : Word) : BitVec 4 := w.extractLsb' 16 4
/-- [15:4], the primary part number (R25). -/
def midrPart (w : Word) : BitVec 12 := w.extractLsb' 4 12
/-- [3:0], the revision number (R24). -/
def midrRevision (w : Word) : BitVec 4 := w.extractLsb' 0 4

/-! ### Cache type register (R30) -/

/-- [28:25], the cache type field (R31). -/
def ctrType (w : Word) : BitVec 4 := w.extractLsb' 25 4
/-- [24]: separate data and instruction caches (R32). -/
def ctrSeparate (w : Word) : Bool := w.getLsbD 24
/-- [23:12], the data cache's size field (R33). -/
def ctrDataSize (w : Word) : BitVec 12 := w.extractLsb' 12 12
/-- [11:0], the instruction cache's size field (R33). -/
def ctrInstructionSize (w : Word) : BitVec 12 := w.extractLsb' 0 12

/-- How a cache's contents are cleaned (R31). -/
inductive CacheCleaning where
  | notNeeded
  | readDataBlocks
  /-- By the CP15 register of this number. -/
  | byRegister (number : BitVec 4)
deriving DecidableEq, Repr

/-- How a cache's contents are locked down (R31). The two formats are two values, whatever each is
(91_not_in_source.md N6). -/
inductive CacheLockdown where
  | notSupported | formatA | formatB
deriving DecidableEq, Repr

/-- A row of R31's table: write-back or write-through, cleaning, lockdown. -/
structure CacheType where
  writeBack : Bool
  cleaning : CacheCleaning
  lockdown : CacheLockdown
deriving DecidableEq, Repr

/-- R31's table; no conclusion is drawn from an unlisted code. Register 7 and the names of the formats are R31's general
knowledge (PRESUMED, log entry 28). -/
def cacheType (code : BitVec 4) : Option CacheType :=
  if code = 0b0000 then some ⟨false, .notNeeded, .notSupported⟩
  else if code = 0b0001 then some ⟨true, .readDataBlocks, .notSupported⟩
  else if code = 0b0010 then some ⟨true, .byRegister 7, .notSupported⟩
  else if code = 0b0110 then some ⟨true, .byRegister 7, .formatA⟩
  else if code = 0b0111 then some ⟨true, .byRegister 7, .formatB⟩
  else none

/-- Which cache each size field describes (R33). -/
inductive CacheSizes where
  /-- `S` = 0: the one unified cache. -/
  | unified (size : BitVec 12)
  /-- `S` = 1. -/
  | separate (data instruction : BitVec 12)
deriving DecidableEq, Repr

/-- R33: with `S` = 0 `Dsize` describes the one unified cache, with `S` = 1 the data cache, and `Isize` the instruction
cache. The case `S` = 0 is R33's general knowledge (PRESUMED, log entry 28). -/
def cacheSizes (ctr : Word) : CacheSizes :=
  if ctrSeparate ctr then .separate (ctrDataSize ctr) (ctrInstructionSize ctr) else .unified (ctrDataSize ctr)

/-- R33: with `S` = 0 `Isize` repeats `Dsize`. A constant for which it does not is outside the source's description; no
conclusion is drawn from it and no access depends on it (92 D20). -/
def sizeFieldsAgree (ctr : Word) : Bool := ctrSeparate ctr || ctrInstructionSize ctr == ctrDataSize ctr

/-- Bits [11:9] of a size field are 0b000 (R34). -/
def sizeFieldOk (f : BitVec 12) : Bool := f.extractLsb' 9 3 == 0
/-- Bits [8:6] of a size field, the cache size code (R34). -/
def sizeCode (f : BitVec 12) : BitVec 3 := f.extractLsb' 6 3
/-- Bits [5:3] of a size field, the associativity code (R34). -/
def associativityCode (f : BitVec 12) : BitVec 3 := f.extractLsb' 3 3
/-- Bit [2] of a size field, the modifier `M` (R34, R38). -/
def sizeModifier (f : BitVec 12) : Bool := f.getLsbD 2
/-- Bits [1:0] of a size field, the block size code (R34). -/
def blockCode (f : BitVec 12) : BitVec 2 := f.extractLsb' 0 2

/-- R35's table: 2, 4, 8, 16 (the unit is 32-bit words, PRESUMED, log entry 28). -/
def blockSize (code : BitVec 2) : Nat := 2 ^ (code.toNat + 1)

/-- R36's table; none where the table prints "none", with `M` = 1 and code 0b000 (R38). -/
def associativity (code : BitVec 3) (m : Bool) : Option Nat :=
  if !m then some (2 ^ code.toNat)
  else if code = 0 then none
  else some (3 * 2 ^ (code.toNat - 1))

/-- R37's table, in bytes. -/
def cacheSizeBytes (code : BitVec 3) (m : Bool) : Nat :=
  if m then 768 * 2 ^ code.toNat else 512 * 2 ^ code.toNat

end Sys2Proof.Machine
end

