-- ==== Sys2Proof/Machine/OtherAccesses.lean ====
section
/-!
DEFINITION. Every access to p15 that is not in the table of 30_encoding.md R118 (R119, 46_other_registers.md).
-/
namespace Sys2Proof.Machine

/-- R119: no state changes and `x[Rd]` is not written. The reason is the one of `refusalOf`; the last refusal stands for
a term that is not well formed, whose tuple another row lists. -/
def execOtherAccess (cond : BitVec 4) (isRead : Bool) (op1 : BitVec 3) (crn rd : BitVec 4) (op2 : BitVec 3)
    (crm : BitVec 4) (s : State) : Outcome :=
  admitted (.otherAccess cond isRead op1 crn rd op2 crm) s (.refused .accessWithoutMeaning)

end Sys2Proof.Machine
end

