-- ==== Sys2Proof/Machine/TlbOperations.lean ====
section
/-!
DEFINITION. Register 8, the TLB operations (44_c8_tlb.md).
-/
namespace Sys2Proof.Machine

/-- R170: `CP15.ITLB <- {}`. -/
def execMcrItlbAll (cond rd : BitVec 4) (s : State) : Outcome :=
  admitted (.mcrItlbAll cond rd) s (wholeTlb s rd (s.cp15.replaceItlb []))

/-- R171: the entries of the instruction TLB that cover the address leave. -/
def execMcrItlbEntry (cond rd : BitVec 4) (s : State) : Outcome :=
  admitted (.mcrItlbEntry cond rd) s
    (.next (s.commit (s.cp15.replaceItlb (Tlb.without s.cp15.itlb (s.readX rd)))))

/-- R172: `CP15.DTLB <- {}`. -/
def execMcrDtlbAll (cond rd : BitVec 4) (s : State) : Outcome :=
  admitted (.mcrDtlbAll cond rd) s (wholeTlb s rd (s.cp15.replaceDtlb []))

/-- R173: the entries of the data TLB that cover the address leave. -/
def execMcrDtlbEntry (cond rd : BitVec 4) (s : State) : Outcome :=
  admitted (.mcrDtlbEntry cond rd) s
    (.next (s.commit (s.cp15.replaceDtlb (Tlb.without s.cp15.dtlb (s.readX rd)))))

/-- R174: both are emptied in the one step. -/
def execMcrTlbAll (cond rd : BitVec 4) (s : State) : Outcome :=
  admitted (.mcrTlbAll cond rd) s (wholeTlb s rd ((s.cp15.replaceItlb []).replaceDtlb []))

/-- R175: R171 in both TLBs. -/
def execMcrTlbEntry (cond rd : BitVec 4) (s : State) : Outcome :=
  admitted (.mcrTlbEntry cond rd) s
    (.next (s.commit ((s.cp15.replaceItlb (Tlb.without s.cp15.itlb (s.readX rd))).replaceDtlb
      (Tlb.without s.cp15.dtlb (s.readX rd)))))

end Sys2Proof.Machine
end

