-- ==== Sys2Proof/Machine/Translation.lean ====
section
/-!
DEFINITION. Registers 2 and 3, translation table base and domain access control (42_c2_c3_translation.md).
-/
namespace Sys2Proof.Machine

/-- R150: the base from `CP15.TTB`, the low bits drawn, the word returned goes to the ghost. -/
def execMrcTtb (cond rd : BitVec 4) (s : State) : Outcome :=
  admitted (.mrcTtb cond rd) s (.next (s.deliverDrawn .ttb s.cp15.ttb rd))

/-- R151: refused unless the low bits are zero or preserved; then the base takes the written bits. -/
def execMcrTtb (cond rd : BitVec 4) (s : State) : Outcome :=
  admitted (.mcrTtb cond rd) s
    (if s.reservedFieldOk .ttb (s.readX rd) then .next (s.commit (s.cp15.writeTtb s.cfg (s.readX rd)))
     else .refused .sbzpFieldWritten)

/-- R152: `x[Rd] <- CP15.DACR`, all 32 bits. -/
def execMrcDacr (cond rd : BitVec 4) (s : State) : Outcome :=
  admitted (.mrcDacr cond rd) s (.next (s.deliver rd s.cp15.dacr))

/-- R153: refused if a field is written with 0b10; then `CP15.DACR <- w`. -/
def execMcrDacr (cond rd : BitVec 4) (s : State) : Outcome :=
  admitted (.mcrDacr cond rd) s
    (if hasReservedDomain (s.readX rd) then .refused .reservedDomainValueWritten
     else .next (s.commit (s.cp15.writeDacr (s.readX rd))))

end Sys2Proof.Machine
end

