-- ==== Sys2Proof/Machine/VectorPid.lean ====
section
/-!
DEFINITION. Registers 12 and 13, exception vector base and process identifier (45_c12_c13_vector_pid.md).
-/
namespace Sys2Proof.Machine

/-- R180: refused if a bit of [4:0] is written non-zero; then `CP15.VBASE <- w[31:5]`. -/
def execMcrVbase (cond rd : BitVec 4) (s : State) : Outcome :=
  admitted (.mcrVbase cond rd) s
    (if s.reservedFieldOk .vbase (s.readX rd) then .next (s.commit (s.cp15.writeVbase (s.readX rd)))
     else .refused .vbaseReservedBitsWritten)

/-- R181: refused unless bits [24:0] are zero or preserved; then `CP15.PID <- w[31:25]`. -/
def execMcrPid (cond rd : BitVec 4) (s : State) : Outcome :=
  admitted (.mcrPid cond rd) s
    (if s.reservedFieldOk .pid (s.readX rd) then .next (s.commit (s.cp15.writePid (s.readX rd)))
     else .refused .sbzpFieldWritten)

/-- R182: [31:25] the PID, [24:0] drawn, the word returned goes to the ghost. -/
def execMrcPid (cond rd : BitVec 4) (s : State) : Outcome :=
  admitted (.mrcPid cond rd) s (.next (s.deliverDrawn .pid (pidWord s.cp15.pid) rd))

end Sys2Proof.Machine
end

