-- ==== Sys2Proof/Machine/Dispatch.lean ====
section
/-!
DEFINITION. The meaning of each instruction, one arm per row of the opcode table.
-/
namespace Sys2Proof.Machine

def exec (i : Instr) (s : State) : Host.Outcome State Fault Refusal :=
  match i with
  | .mrcMainId cond rd => Sys2Proof.Machine.execMrcMainId cond rd s
  | .mrcCacheType cond rd => Sys2Proof.Machine.execMrcCacheType cond rd s
  | .mrcControl cond rd => Sys2Proof.Machine.execMrcControl cond rd s
  | .mcrControl cond rd => Sys2Proof.Machine.execMcrControl cond rd s
  | .mrcTtb cond rd => Sys2Proof.Machine.execMrcTtb cond rd s
  | .mcrTtb cond rd => Sys2Proof.Machine.execMcrTtb cond rd s
  | .mrcDacr cond rd => Sys2Proof.Machine.execMrcDacr cond rd s
  | .mcrDacr cond rd => Sys2Proof.Machine.execMcrDacr cond rd s
  | .mrcDfsr cond rd => Sys2Proof.Machine.execMrcDfsr cond rd s
  | .mrcIfsr cond rd => Sys2Proof.Machine.execMrcIfsr cond rd s
  | .mrcDfar cond rd => Sys2Proof.Machine.execMrcDfar cond rd s
  | .mrcIfar cond rd => Sys2Proof.Machine.execMrcIfar cond rd s
  | .mcrItlbAll cond rd => Sys2Proof.Machine.execMcrItlbAll cond rd s
  | .mcrItlbEntry cond rd => Sys2Proof.Machine.execMcrItlbEntry cond rd s
  | .mcrDtlbAll cond rd => Sys2Proof.Machine.execMcrDtlbAll cond rd s
  | .mcrDtlbEntry cond rd => Sys2Proof.Machine.execMcrDtlbEntry cond rd s
  | .mcrTlbAll cond rd => Sys2Proof.Machine.execMcrTlbAll cond rd s
  | .mcrTlbEntry cond rd => Sys2Proof.Machine.execMcrTlbEntry cond rd s
  | .mcrVbase cond rd => Sys2Proof.Machine.execMcrVbase cond rd s
  | .mcrPid cond rd => Sys2Proof.Machine.execMcrPid cond rd s
  | .mrcPid cond rd => Sys2Proof.Machine.execMrcPid cond rd s
  | .otherAccess cond isRead op1 crn rd op2 crm => Sys2Proof.Machine.execOtherAccess cond isRead op1 crn rd op2 crm s

end Sys2Proof.Machine
end

