-- ==== Sys2Proof/Machine/Fetch.lean ====
section
/-!
DEFINITION. How the core is handed its next access (10_state.md R71, 30_encoding.md R115, R117): the bytes listed at the
program counter, whether the access executes, and how a listing is put there.
-/
namespace Sys2Proof.Machine

/-- The four bytes at a word-aligned address (30_encoding.md R114: the instruction is one length only, 32 bits). -/
def fetchBytes (m : Memory) (pc : Word) : Except Fault (List Byte) :=
  if pc.extractLsb' 0 2 ≠ 0 then .error .pcMisaligned
  else match m.read pc, m.read (pc + 1), m.read (pc + 2), m.read (pc + 3) with
    | some b0, some b1, some b2, some b3 => .ok [b0, b1, b2, b3]
    | _, _, _, _ => .error .noInstruction

/-- The condition "always" (30_encoding.md R115). -/
def condAlways : BitVec 4 := 0b1110

/-- R115: the access executes if its condition is "always" or the core's check of it passes (92 D25; log entry 9). -/
def executes (i : Instr) (s : State) : Bool := i.cond == condAlways || s.condPassed

/-- The state in which a core turn acts: the turn's two inputs in place (60_exceptions.md R216, 30_encoding.md R115). -/
def State.withInputs (s : State) (privileged condPassed : Bool) : State :=
  { s with privileged := privileged, condPassed := condPassed }

/-- The instruction word listed at the program counter, in the byte order of instruction words. -/
def State.placeWord (s : State) (w : Word) : State :=
  { s with mem := s.mem.writeBytes s.pc (splitBytes s.cfg.fetchOrder w) }

end Sys2Proof.Machine
end

