-- ==== Sys2Proof/Machine/MemSystem.lean ====
section
/-!
DEFINITION. The memory system agent's steps: recording a memory access fault (60_exceptions.md R200 to R207), TLB fills
and drops (20_memory.md R89), and the end of the window of 20_memory.md R96.
-/
namespace Sys2Proof.Machine

/-- `FSR.status <- code(k)`, the `x` of the code drawn (R200, R206). -/
def statusOf (code : FsrCode) (drawn : Word) : BitVec 4 := mergeBits code.drawn (drawn.setWidth 4) code.bits

/-- The record of a fault: the domain where it is valid and drawn otherwise (R204), and the status. -/
def fsrOf (k : FaultCause) (code : FsrCode) (domain : BitVec 4) (drawnStatus drawnDomain : Word) : Fsr where
  domain := if k.domainValid then domain else drawnDomain.setWidth 4
  status := statusOf code drawnStatus

/-- The fault address where it is valid, drawn otherwise (R205). -/
def farOf (k : FaultCause) (address drawn : Word) : Word := if k.farValid then address else drawn

/-- The pair of registers the kind of access writes (R200, R201). -/
def Cp15.recordPair (c : Cp15) (side : Side) (fsr : Fsr) (far : Word) : Cp15 :=
  match side with
  | .data => { c with dfsr := fsr, dfar := far }
  | .instruction => { c with ifsr := fsr, ifar := far }

/-- `record_fault(t, k, d, a)` (R200), in one atomic step. Three free words are taken, for the status, the domain and the
address. -/
def State.recordFault (s : State) (side : Side) (k : FaultCause) (code : FsrCode) (domain : BitVec 4)
    (address : Word) : State :=
  { s with
    draws := s.draws + 3
    cp15 := s.cp15.recordPair side
      (fsrOf k code domain (Config.freeWord s.draws) (Config.freeWord (s.draws + 1)))
      (farOf k address (Config.freeWord (s.draws + 2))) }

/-- The domain may restrict an access: its field, as it may govern (20_memory.md R96), is not 0b11 throughout, the value
under which no access is checked (10_state.md R60). Which of 0b00 and 0b01 forbids and which has permissions checked is
lost (91_not_in_source.md N18), so both may do either (log entry 19). -/
def State.domainMayRestrict (s : State) (domain : BitVec 4) : Bool :=
  (s.cp15.dacr :: s.cp15.window.dacr).any fun d => domainField d domain != 0b11

/-- R209: an access in the domain, at the address, can meet the cause's condition. Cause 3 needs a misaligned address and
A = 1 (log entry 37), causes 4 to 11 need M = 1, causes 8 and 9 also a domain that forbids the access, causes 10 and 11
one that demands a permission check; each control counts with every value that may govern (20_memory.md R96). Of the
other causes nothing is derived (log entry 19). -/
def State.faultMayArise (s : State) (k : FaultCause) (domain : BitVec 4) (address : Word) : Bool :=
  match k with
  | .terminal | .vector | .sectionLineFetch | .pageLineFetch | .sectionNonLineFetch | .pageNonLineFetch => true
  | .alignment => address.extractLsb' 0 2 != 0 && s.bitMayGovern .a true
  | .firstLevelAccess | .secondLevelAccess | .sectionTranslation | .pageTranslation => s.bitMayGovern .m true
  | .sectionDomain | .pageDomain | .sectionPermission | .pagePermission =>
    s.bitMayGovern .m true && s.domainMayRestrict domain

/-- The record of the cause, or the reason for none: the access belongs to a domain whose field may be 0b10 (93 U4), or
the cause has no code (R202). Log entries 21 and 22. -/
def recordStep (s : State) (side : Side) (k : FaultCause) (domain : BitVec 4) (address : Word) : Outcome :=
  if k.domainValid && s.domainMayGovern domain 0b10 then .refused .reservedDomainAccessed
  else match s.cfg.fsrCodes.code k with
    | some code => .next (s.recordFault side k code domain address)
    | none => .refused .causeWithoutCode

/-- A memory access fails: of the causes that can arise the one highest in the table is recorded (R203, R209). Where none
can, the hardware has no such step, and the turn passes without effect (log entry 19). Refused where registers 5 and 6
are no fault registers (20_memory.md R87, 46_other_registers.md R193; log entry 20). -/
def faultStep (s : State) (side : Side) (causes : List FaultCause) (domain : BitVec 4) (address : Word) : Outcome :=
  if s.cfg.memsys ≠ .mmu then .refused .formWithoutMmu
  else match causes.filter fun k => s.faultMayArise k domain address with
    | [] => .next s
    | first :: others => recordStep s side (first.highest others) domain address

/-- Add an entry to the set, unless it is there. -/
def Tlb.add (t : Tlb) (e : TlbEntry) : Tlb := if e ∈ t then t else e :: t

/-- Take an entry out of the set. -/
def Tlb.remove (t : Tlb) (e : TlbEntry) : Tlb := t.filter fun x => x != e

/-- The contents of the TLB of a kind. -/
def Cp15.tlb (c : Cp15) : Side → Tlb
  | .data => c.dtlb
  | .instruction => c.itlb

/-- The TLB of a kind with other contents. A fill or a drop is no operation of a program: no window is opened. -/
def Cp15.withTlb (c : Cp15) (side : Side) (t : Tlb) : Cp15 :=
  match side with
  | .data => { c with dtlb := t }
  | .instruction => { c with itlb := t }

/-- A fill (20_memory.md R89): "at any step while M = 1", where M = 1 may govern (R96) and there is an MMU. Otherwise the
hardware has no such step, and the turn passes without effect (log entry 17). -/
def State.fillTlb (s : State) (side : Side) (e : TlbEntry) : State :=
  if s.cfg.memsys = .mmu ∧ s.bitMayGovern .m true then
    { s with cp15 := s.cp15.withTlb side ((s.cp15.tlb side).add e) }
  else s

/-- A drop (20_memory.md R89): any entry, at any time. -/
def State.dropTlb (s : State) (side : Side) (e : TlbEntry) : State :=
  { s with cp15 := s.cp15.withTlb side ((s.cp15.tlb side).remove e) }

/-- The window of a control shrinks to its most recent values (20_memory.md R96). -/
def Window.settle (w : Window) (control : Control) (keep : Nat) : Window :=
  match control with
  | .c1 => { w with c1 := w.c1.take keep }
  | .ttb => { w with ttb := w.ttb.take keep }
  | .dacr => { w with dacr := w.dacr.take keep }
  | .vbase => { w with vbase := w.vbase.take keep }
  | .pid => { w with pid := w.pid.take keep }
  | .itlb => { w with itlb := w.itlb.take keep }
  | .dtlb => { w with dtlb := w.dtlb.take keep }

/-- One step of the memory system agent. -/
def memStep (event : MemEvent) (s : State) : Outcome :=
  match event with
  | .fault side cause others domain address => faultStep s side (cause :: others) domain address
  | .fill side entry => .next (s.fillTlb side entry)
  | .drop side entry => .next (s.dropTlb side entry)
  | .settle control keep =>
    .next { s with cp15 := { s.cp15 with window := s.cp15.window.settle control keep } }

end Sys2Proof.Machine
end

