-- ==== Sys2Proof/Machine/Step.lean ====
section
/-!
DEFINITION. One step of the machine: the agent whose turn it is moves (00_scope.md R11).
-/
namespace Sys2Proof.Machine

/-- The core's step: the instruction at the program counter is executed; one whose condition fails only advances the
program counter (30_encoding.md R115). -/
def coreStep (s : State) : Outcome :=
  match fetchBytes s.mem s.pc with
  | .error f => .fault f
  | .ok bytes =>
    match decode s.cfg.fetchOrder bytes with
    | .error e => .refused (.undecodable e)
    | .ok (i, _) => if executes i s then exec i s else .next s.advance

/-- One step. A configuration outside 10_state.md R25 or R32 is refused. -/
def step (s : State) : Host.Outcome State Fault Refusal :=
  if !s.cfg.valid then .refused .configuration
  else match s.turns with
    | [] => coreStep s
    | .core privileged condPassed :: rest => coreStep (({ s with turns := rest } : State).withInputs privileged condPassed)
    | .memSystem event :: rest => memStep event { s with turns := rest }

/-- The entry point `exec_MRC(op1, Rd, CRn, CRm, op2)` of 00_scope.md R8. -/
def execMRC (op1 : BitVec 3) (rd crn crm : BitVec 4) (op2 : BitVec 3) (s : State) : Outcome :=
  exec (Access.instr ⟨true, op1, crn, crm, op2⟩ condAlways rd) s

/-- The entry point `exec_MCR(op1, Rd, CRn, CRm, op2)` of 00_scope.md R8. -/
def execMCR (op1 : BitVec 3) (rd crn crm : BitVec 4) (op2 : BitVec 3) (s : State) : Outcome :=
  exec (Access.instr ⟨false, op1, crn, crm, op2⟩ condAlways rd) s

/-- The instruction of the table's bits listed at the program counter, and the next turn the core's, with its present
privilege and its condition passing (log entry 29). -/
def State.withFetchWord (s : State) (nbits w : Nat) : State :=
  { s.placeWord (tableWord nbits w) with turns := .core s.privileged true :: s.turns }

end Sys2Proof.Machine
end

