-- ==== Sys2Proof/Safety.lean ====
section
/-!
DEFINITION. What counts as a state and a run in good order, in the terms the statements use: the invariants of the
state, and the boot order the spec derives (70_reset_and_hazards.md R233).
-/
namespace Sys2Proof.Machine

/-- The invariant of the state: memory in canonical form, a word-aligned program counter (10_state.md R71), fixed control
bits at their fixed values (R73, R74), no state in the low bits of register 2 (R58, R75), TLBs without repeats (R64). -/
abbrev State.Inv (s : State) : Prop :=
  s.mem.wf ∧ s.pc.extractLsb' 0 2 = 0 ∧ s.cfg.controlValue s.cp15.c1 = s.cp15.c1 ∧
    s.cp15.ttb &&& s.cfg.ttbLowMask = 0 ∧ s.cp15.itlb.Nodup ∧ s.cp15.dtlb.Nodup

/-- The state side of an access that executes normally: an admitted configuration (10_state.md R25, R32) and privilege
(60_exceptions.md R216). -/
abbrev State.CanAccess (s : State) : Prop := s.cfg.valid = true ∧ s.privileged = true

/-- No domain field that governs, or may still govern, is the reserved value 0b10 (10_state.md R60, 20_memory.md R96). -/
abbrev State.DomainsInUse (s : State) : Prop :=
  ∀ d ∈ s.cp15.dacr :: s.cp15.window.dacr, hasReservedDomain d = false

/-- The ghosts agree with what a read can return: fixed control bits at their fixed values (R73), bit [8] of a fault
status register 0 (R62). -/
abbrev State.GhostsReadable (s : State) : Prop :=
  (∀ v ∈ s.cp15.lastRead.c1, v.setWidth 16 &&& ~~~s.cfg.rwMask = s.cfg.fixedOnes) ∧
    (∀ v ∈ s.cp15.lastRead.dfsr, v.getLsbD 8 = false) ∧ ∀ v ∈ s.cp15.lastRead.ifsr, v.getLsbD 8 = false

/-- The bits a read of a register number returns drawn (10_state.md R75); none for the registers whose every bit holds
state. -/
def drawnBits (cfg : Config) (crn : BitVec 4) : Word :=
  if crn = 1 then reservedMask cfg .c1
  else if crn = 2 then reservedMask cfg .ttb
  else if crn = 5 then reservedMask cfg .dfsr
  else if crn = 13 then reservedMask cfg .pid
  else 0

/-- R233: before software sets M it must have written register 2 and register 3 and invalidated both TLBs, in any order.
The list is the instructions executed so far, in program order. -/
def readyToSetM (done : List Instr) : Bool :=
  let has (f : Instr → Bool) := done.any f
  has (fun i => i.access == writeOf 2 0 0) && has (fun i => i.access == writeOf 3 0 0) &&
    (has (fun i => i.access == writeOf 8 7 0) ||
      (has (fun i => i.access == writeOf 8 5 0) && has (fun i => i.access == writeOf 8 6 0)))

/-- R236 item 1: a stale entry, which a TLB still holds for an address. -/
def State.mayHoldTranslation (s : State) (side : Side) (va : Word) : Bool := (s.cp15.tlb side).any fun e => e.covers va

end Sys2Proof.Machine
end

