-- ==== Sys2Proof/Certificates/Slice0/Obligations.lean ====
section
/-!
DEFINITION. The statements for the provers. Where a statement leaves a field of the model's own (`draws`, `window`) to an
existential, it says nothing of the model's choice for it (log entries 5 and 18).
-/
open Sys2Proof Sys2Proof.Machine

/-! ### Register 0 -/

/-- R130: reading the main ID register moves the constant into `Rd`, advances the program counter, changes nothing else. -/
def Obligations.ReadMainIdMovesTheConstant : Prop :=
  ∀ (cond rd : BitVec 4) (s : State) (hr : rd.toNat < 15), s.CanAccess →
    exec (.mrcMainId cond rd) s = .next { s with regs := s.regs.set rd.toNat s.cfg.midrValue, pc := s.pc + 4 }

/-- R131: reading the cache type register moves the constant into `Rd`, advances the program counter, changes nothing
else. -/
def Obligations.ReadCacheTypeMovesTheConstant : Prop :=
  ∀ (cond rd : BitVec 4) (s : State) (hr : rd.toNat < 15), s.CanAccess →
    exec (.mrcCacheType cond rd) s = .next { s with regs := s.regs.set rd.toNat s.cfg.ctrValue, pc := s.pc + 4 }

/-! ### Register 1 -/

/-- R140: a read of the control register returns each control bit by its kind, keeps the returned word as the ghost, and
changes nothing else but `Rd` and the program counter. Bits [31:16] of the word are left open. -/
def Obligations.ReadControlReturnsBitsByKind : Prop :=
  ∀ (cond rd : BitVec 4) (s : State) (hr : rd.toNat < 15), s.CanAccess →
    ∃ (v : Word) (drawn : Nat),
      (∀ bit : ControlBit, v.getLsbD bit.index =
        match s.cfg.kind bit with
        | .rw => s.cp15.c1.getLsbD bit.index
        | .fixed0 => false
        | .fixed1 => true) ∧
      exec (.mrcControl cond rd) s = .next
        { s with
          regs := s.regs.set rd.toNat v
          pc := s.pc + 4
          draws := drawn
          cp15 := { s.cp15 with lastRead := { s.cp15.lastRead with c1 := some v } } }

/-- R73, row by row with the bits' own numbers: what a read delivers of the bits held, and what the system sees of the
bits written. The kinds of bits 6 and 15 in the versions for which R73 leaves them open, and of bit 10, are parameters
(92 D30; R51). -/
def Obligations.ControlBitKindsAreTheTables : Prop :=
  ∀ (cond rd : BitVec 4) (s t : State),
    let c := s.cfg
    let fixedOr (kind : BitKind) (bit : Bool) : Bool :=
      match kind with
      | .rw => bit
      | .fixed0 => false
      | .fixed1 => true
    let rows (seen bit : Nat → Bool) : Prop :=
      seen 0 = (if c.memsys = .none then false else bit 0) ∧
      seen 1 = bit 1 ∧
      seen 2 = (if c.hasCache = .none then false else if c.cacheCanDisable then bit 2 else true) ∧
      seen 3 = (if c.hasWb = false then false else if c.wbCanDisable then bit 3 else true) ∧
      seen 4 = (if c.has26Bit then bit 4 else true) ∧
      seen 5 = (if c.has26Bit then bit 5 else true) ∧
      seen 6 = (if c.archVersion ≤ 3 then bit 6 else fixedOr c.lKind (bit 6)) ∧
      seen 7 = (if c.endianSupport = .both then bit 7 else decide (c.endianSupport = .bigOnly)) ∧
      seen 8 = bit 8 ∧
      seen 9 = bit 9 ∧
      seen 10 = fixedOr c.fKind (bit 10) ∧
      seen 11 = (if c.hasBranchPred then bit 11 else false) ∧
      seen 12 = (if c.hasCache ≠ .separate then false else if c.icacheCanDisable then bit 12 else true) ∧
      seen 13 = (if c.hasHivecs then bit 13 else false) ∧
      seen 14 = (if c.replSelectable then bit 14 else c.replFixedRead) ∧
      seen 15 = (if 5 ≤ c.archVersion then bit 15 else fixedOr c.l4Kind (bit 15))
    (exec (.mrcControl cond rd) s = .next t → rows (t.readX rd).getLsbD s.cp15.c1.getLsbD) ∧
    (exec (.mcrControl cond rd) s = .next t → rows t.outputs.control.getLsbD (s.readX rd).getLsbD)

/-- R141: a write of the control register whose bits [31:16] are zero or preserved gives each `rw` bit the written bit
and leaves the other bits; nothing else changes but the program counter and the model's window. Any other write is
refused. -/
def Obligations.WriteControlWritesTheRwBits : Prop :=
  ∀ (cond rd : BitVec 4) (s : State), rd.toNat < 15 → s.CanAccess →
    (((s.readX rd).extractLsb' 16 16 = 0 ∨
        ∃ v, s.cp15.lastRead.c1 = some v ∧ (s.readX rd).extractLsb' 16 16 = v.extractLsb' 16 16) →
      ∃ (c1 : BitVec 16) (window : Window),
        (∀ bit : ControlBit, c1.getLsbD bit.index =
          if s.cfg.kind bit = .rw then (s.readX rd).getLsbD bit.index else s.cp15.c1.getLsbD bit.index) ∧
        exec (.mcrControl cond rd) s = .next
          { s with pc := s.pc + 4, cp15 := { s.cp15 with c1 := c1, window := window } }) ∧
    ((s.readX rd).extractLsb' 16 16 ≠ 0 →
      (∀ v, s.cp15.lastRead.c1 = some v → (s.readX rd).extractLsb' 16 16 ≠ v.extractLsb' 16 16) →
      exec (.mcrControl cond rd) s = .refused .sbzpFieldWritten)

/-- R142: after a write of the control register the rest of the system sees each `rw` bit as written and each other bit
at its fixed value. -/
def Obligations.WrittenControlBitsAreExported : Prop :=
  ∀ (cond rd : BitVec 4) (s t : State), exec (.mcrControl cond rd) s = .next t →
    ∀ bit : ControlBit, t.outputs.control.getLsbD bit.index =
      match s.cfg.kind bit with
      | .rw => (s.readX rd).getLsbD bit.index
      | .fixed0 => false
      | .fixed1 => true

/-- R75: after a read of the control register, a write of any word that keeps bits [31:16] as read is admitted: the
read-modify-write sequence always goes through. -/
def Obligations.ReadModifyWriteOfControlIsAdmitted : Prop :=
  ∀ (cond rd cond' rd' : BitVec 4) (s t : State) (w : Word), exec (.mrcControl cond rd) s = .next t →
    rd'.toNat < 15 → w.extractLsb' 16 16 = (t.readX rd).extractLsb' 16 16 →
    ∃ u, exec (.mcrControl cond' rd') (t.writeX rd' w) = .next u

/-- R140 and R141 together: what a read returns after a write, bit by bit. -/
def Obligations.ControlReadsBackAsWritten : Prop :=
  ∀ (cond rd cond' rd' : BitVec 4) (s t u : State),
    exec (.mcrControl cond rd) s = .next t → exec (.mrcControl cond' rd') t = .next u →
    ∀ bit : ControlBit, (u.readX rd').getLsbD bit.index =
      match s.cfg.kind bit with
      | .rw => (s.readX rd).getLsbD bit.index
      | .fixed0 => false
      | .fixed1 => true

/-! ### Registers 2 and 3 -/

/-- R150: a read of the translation table base returns the base bits, keeps the returned word as the ghost, and changes
nothing else but `Rd` and the program counter. The low bits of the word are left open. -/
def Obligations.ReadTtbReturnsTheBase : Prop :=
  ∀ (cond rd : BitVec 4) (s : State) (hr : rd.toNat < 15), s.CanAccess → s.cfg.memsys = .mmu →
    ∃ (v : Word) (drawn : Nat),
      (∀ n, s.cfg.ttbLowBits ≤ n → v.getLsbD n = s.cp15.ttb.getLsbD n) ∧
      exec (.mrcTtb cond rd) s = .next
        { s with
          regs := s.regs.set rd.toNat v
          pc := s.pc + 4
          draws := drawn
          cp15 := { s.cp15 with lastRead := { s.cp15.lastRead with ttb := some v } } }

/-- R151: a write of the translation table base whose low bits are zero or preserved gives the base bits the written
bits; nothing else changes but the program counter and the model's window. Any other write is refused. -/
def Obligations.WriteTtbWritesTheBase : Prop :=
  ∀ (cond rd : BitVec 4) (s : State), rd.toNat < 15 → s.CanAccess → s.cfg.memsys = .mmu →
    (((∀ n < s.cfg.ttbLowBits, (s.readX rd).getLsbD n = false) ∨
        ∃ v, s.cp15.lastRead.ttb = some v ∧ ∀ n < s.cfg.ttbLowBits, (s.readX rd).getLsbD n = v.getLsbD n) →
      ∃ (ttb : Word) (window : Window),
        (∀ n, ttb.getLsbD n =
          if s.cfg.ttbLowBits ≤ n then (s.readX rd).getLsbD n else s.cp15.ttb.getLsbD n) ∧
        exec (.mcrTtb cond rd) s = .next
          { s with pc := s.pc + 4, cp15 := { s.cp15 with ttb := ttb, window := window } }) ∧
    ((∃ n < s.cfg.ttbLowBits, (s.readX rd).getLsbD n = true) →
      (∀ v, s.cp15.lastRead.ttb = some v → ∃ n < s.cfg.ttbLowBits, (s.readX rd).getLsbD n ≠ v.getLsbD n) →
      exec (.mcrTtb cond rd) s = .refused .sbzpFieldWritten)

/-- R152: a read of the domain access control register moves all 32 bits and changes nothing else but `Rd` and the
program counter. -/
def Obligations.ReadDacrMovesAllBits : Prop :=
  ∀ (cond rd : BitVec 4) (s : State) (hr : rd.toNat < 15), s.CanAccess → s.cfg.memsys = .mmu →
    exec (.mrcDacr cond rd) s = .next { s with regs := s.regs.set rd.toNat s.cp15.dacr, pc := s.pc + 4 }

/-- R153: a write of the domain access control register is refused if one of the sixteen fields is 0b10, and otherwise
writes all 32 bits; nothing else changes but the program counter and the model's window. -/
def Obligations.WriteDacrUnlessAFieldIsReserved : Prop :=
  ∀ (cond rd : BitVec 4) (s : State), rd.toNat < 15 → s.CanAccess → s.cfg.memsys = .mmu →
    ((∃ n < 16, (s.readX rd).extractLsb' (2 * n) 2 = 0b10#2) →
      exec (.mcrDacr cond rd) s = .refused .reservedDomainValueWritten) ∧
    ((∀ n < 16, (s.readX rd).extractLsb' (2 * n) 2 ≠ 0b10#2) →
      ∃ window, exec (.mcrDacr cond rd) s = .next
        { s with pc := s.pc + 4, cp15 := { s.cp15 with dacr := s.readX rd, window := window } })

/-! ### Registers 5 and 6 -/

/-- R160: a read of the data fault status register returns 0 in bit [8], the domain in [7:4], the status in [3:0], keeps
the returned word as the ghost, and changes nothing else but `Rd` and the program counter. Bits [31:9] are left open. -/
def Obligations.ReadDataFaultStatus : Prop :=
  ∀ (cond rd : BitVec 4) (s : State) (hr : rd.toNat < 15), s.CanAccess → s.cfg.memsys = .mmu →
    ∃ (v : Word) (drawn : Nat),
      v.extractLsb' 0 9 = 0#1 ++ s.cp15.dfsr.domain ++ s.cp15.dfsr.status ∧
      exec (.mrcDfsr cond rd) s = .next
        { s with
          regs := s.regs.set rd.toNat v
          pc := s.pc + 4
          draws := drawn
          cp15 := { s.cp15 with lastRead := { s.cp15.lastRead with dfsr := some v } } }

/-- R161: a read of the instruction fault status register, as R160 with `IFSR`. -/
def Obligations.ReadInstructionFaultStatus : Prop :=
  ∀ (cond rd : BitVec 4) (s : State) (hr : rd.toNat < 15), s.CanAccess → s.cfg.memsys = .mmu →
    ∃ (v : Word) (drawn : Nat),
      v.extractLsb' 0 9 = 0#1 ++ s.cp15.ifsr.domain ++ s.cp15.ifsr.status ∧
      exec (.mrcIfsr cond rd) s = .next
        { s with
          regs := s.regs.set rd.toNat v
          pc := s.pc + 4
          draws := drawn
          cp15 := { s.cp15 with lastRead := { s.cp15.lastRead with ifsr := some v } } }

/-- R162 and R163: the reads of the fault address registers move the address and change nothing else but `Rd` and the
program counter. -/
def Obligations.ReadFaultAddressMovesTheAddress : Prop :=
  ∀ (cond rd : BitVec 4) (s : State) (hr : rd.toNat < 15), s.CanAccess → s.cfg.memsys = .mmu →
    exec (.mrcDfar cond rd) s = .next { s with regs := s.regs.set rd.toNat s.cp15.dfar, pc := s.pc + 4 } ∧
    exec (.mrcIfar cond rd) s = .next { s with regs := s.regs.set rd.toNat s.cp15.ifar, pc := s.pc + 4 }

/-! ### Register 8 -/

/-- R170, R172, R174: with `Rd` holding 0 a whole-TLB operation empties its TLBs; nothing else changes but the program
counter and the model's window. With `Rd` holding anything else it is refused. -/
def Obligations.WholeTlbOperationsEmptyTheirTlbs : Prop :=
  ∀ (cond rd : BitVec 4) (s : State), rd.toNat < 15 → s.CanAccess → s.cfg.memsys = .mmu →
    (s.readX rd = 0 →
      (∃ window, exec (.mcrItlbAll cond rd) s = .next
        { s with pc := s.pc + 4, cp15 := { s.cp15 with itlb := [], window := window } }) ∧
      (∃ window, exec (.mcrDtlbAll cond rd) s = .next
        { s with pc := s.pc + 4, cp15 := { s.cp15 with dtlb := [], window := window } }) ∧
      ∃ window, exec (.mcrTlbAll cond rd) s = .next
        { s with pc := s.pc + 4, cp15 := { s.cp15 with itlb := [], dtlb := [], window := window } }) ∧
    (s.readX rd ≠ 0 →
      exec (.mcrItlbAll cond rd) s = .refused .tlbRdNotZero ∧
      exec (.mcrDtlbAll cond rd) s = .refused .tlbRdNotZero ∧
      exec (.mcrTlbAll cond rd) s = .refused .tlbRdNotZero)

/-- R171, R173, R175: a single-entry operation leaves in its TLBs exactly the entries that do not cover the address in
`Rd`; nothing else changes but the program counter and the model's window. -/
def Obligations.SingleEntryOperationsKeepTheOthers : Prop :=
  ∀ (cond rd : BitVec 4) (s : State), rd.toNat < 15 → s.CanAccess → s.cfg.memsys = .mmu →
    ∃ itlb dtlb : Tlb,
      (∀ e, e ∈ itlb ↔ e ∈ s.cp15.itlb ∧ e.covers (s.readX rd) = false) ∧
      (∀ e, e ∈ dtlb ↔ e ∈ s.cp15.dtlb ∧ e.covers (s.readX rd) = false) ∧
      (∃ window, exec (.mcrItlbEntry cond rd) s = .next
        { s with pc := s.pc + 4, cp15 := { s.cp15 with itlb := itlb, window := window } }) ∧
      (∃ window, exec (.mcrDtlbEntry cond rd) s = .next
        { s with pc := s.pc + 4, cp15 := { s.cp15 with dtlb := dtlb, window := window } }) ∧
      ∃ window, exec (.mcrTlbEntry cond rd) s = .next
        { s with pc := s.pc + 4, cp15 := { s.cp15 with itlb := itlb, dtlb := dtlb, window := window } }

/-- R236 item 1 and R151, R153: no access but the six operations of register 8 takes a translation out of a TLB or puts
one in; a write of register 2 or 3 leaves the old ones. -/
def Obligations.OnlyRegister8ChangesTheTlbs : Prop :=
  ∀ (i : Instr) (s t : State), exec i s = .next t → i.access.crn ≠ 8 →
    t.cp15.itlb = s.cp15.itlb ∧ t.cp15.dtlb = s.cp15.dtlb

/-! ### Registers 12 and 13 -/

/-- R180: a write of register 12 with bits [4:0] zero sets the vector base; nothing else changes but the program counter
and the model's window. With one of them set it is refused. -/
def Obligations.WriteVectorBaseIsAMultipleOf32 : Prop :=
  ∀ (cond rd : BitVec 4) (s : State), rd.toNat < 15 → s.CanAccess → s.cfg.hasVbar = true →
    ((s.readX rd).extractLsb' 0 5 = 0 →
      ∃ window, exec (.mcrVbase cond rd) s = .next
        { s with pc := s.pc + 4,
                 cp15 := { s.cp15 with vbase := (s.readX rd).extractLsb' 5 27, window := window } }) ∧
    ((s.readX rd).extractLsb' 0 5 ≠ 0 → exec (.mcrVbase cond rd) s = .refused .vbaseReservedBitsWritten)

/-- R181: a write of register 13 whose bits [24:0] are zero or preserved sets the process identifier; nothing else changes
but the program counter and the model's window. Any other write is refused. -/
def Obligations.WritePidSetsTheIdentifier : Prop :=
  ∀ (cond rd : BitVec 4) (s : State), rd.toNat < 15 → s.CanAccess → s.cfg.hasPid = true →
    (((s.readX rd).extractLsb' 0 25 = 0 ∨
        ∃ v, s.cp15.lastRead.pid = some v ∧ (s.readX rd).extractLsb' 0 25 = v.extractLsb' 0 25) →
      ∃ window, exec (.mcrPid cond rd) s = .next
        { s with pc := s.pc + 4, cp15 := { s.cp15 with pid := (s.readX rd).extractLsb' 25 7, window := window } }) ∧
    ((s.readX rd).extractLsb' 0 25 ≠ 0 →
      (∀ v, s.cp15.lastRead.pid = some v → (s.readX rd).extractLsb' 0 25 ≠ v.extractLsb' 0 25) →
      exec (.mcrPid cond rd) s = .refused .sbzpFieldWritten)

/-- R182: a read of register 13 returns the process identifier in bits [31:25], keeps the returned word as the ghost, and
changes nothing else but `Rd` and the program counter. Bits [24:0] are left open. -/
def Obligations.ReadPidReturnsTheIdentifier : Prop :=
  ∀ (cond rd : BitVec 4) (s : State) (hr : rd.toNat < 15), s.CanAccess → s.cfg.hasPid = true →
    ∃ (v : Word) (drawn : Nat),
      v.extractLsb' 25 7 = s.cp15.pid ∧
      exec (.mrcPid cond rd) s = .next
        { s with
          regs := s.regs.set rd.toNat v
          pc := s.pc + 4
          draws := drawn
          cp15 := { s.cp15 with lastRead := { s.cp15.lastRead with pid := some v } } }

/-! ### What stops, and in which order -/

/-- R216, R117: without privilege every access, listed or not, raises the undefined instruction exception with its
instruction word, whatever else is wrong with it. -/
def Obligations.UnprivilegedAccessIsUndefined : Prop :=
  ∀ (i : Instr) (s : State), s.cfg.valid = true → s.privileged = false →
    exec i s = .fault (.undefinedInstruction (encode i))

/-- R120: with privilege, every access that names R15 is refused. -/
def Obligations.AccessWithR15IsRefused : Prop :=
  ∀ (i : Instr) (s : State), s.CanAccess → i.rd = 15 → exec i s = .refused .rdIsR15

/-- R25, R32: a configuration whose part number begins with 0x0 or 0x7, or whose cache type disagrees with its caches, is
refused by every step and every access. -/
def Obligations.InvalidConfigurationIsRefused : Prop :=
  ∀ (i : Instr) (s : State),
    (s.cfg.midrValue.extractLsb' 12 4 = 0x0 ∨ s.cfg.midrValue.extractLsb' 12 4 = 0x7 ∨
      (s.cfg.ctrValue.getLsbD 24 = true ∧ s.cfg.hasCache ≠ .separate) ∨
      (s.cfg.ctrValue.getLsbD 24 = false ∧ s.cfg.hasCache = .separate)) →
    step s = .refused .configuration ∧ exec i s = .refused .configuration

/-- R190: every access to a reserved register is refused, in every form. -/
def Obligations.ReservedRegistersAreRefused : Prop :=
  ∀ (i : Instr) (s : State), s.CanAccess → i.rd ≠ 15 →
    (i.access.crn = 4 ∨ i.access.crn = 11 ∨ i.access.crn = 14 ∨ (i.access.crn = 12 ∧ s.cfg.hasVbar = false) ∨
      ((i.access.crn = 8 ∨ i.access.crn = 10) ∧ s.cfg.memsys = .pu)) →
    exec i s = .refused .reservedRegister

/-- R191, where R190 and R193 do not claim register 10: every access to a register named but not described is refused. -/
def Obligations.UndescribedRegistersAreRefused : Prop :=
  ∀ (i : Instr) (s : State), s.CanAccess → i.rd ≠ 15 →
    (i.access.crn = 7 ∨ i.access.crn = 9 ∨ (i.access.crn = 10 ∧ s.cfg.memsys = .mmu)) →
    exec i s = .refused .registerNotDescribed

/-- R192: every access to register 15 is refused. -/
def Obligations.Register15IsRefused : Prop :=
  ∀ (i : Instr) (s : State), s.CanAccess → i.rd ≠ 15 → i.access.crn = 15 → exec i s = .refused .register15

/-- R193 (and the guards R154, R164): without an MMU every access to registers 2, 3, 5 and 6 is refused, and with neither
an MMU nor a PU those to registers 8 and 10 too. -/
def Obligations.FormsWithoutAnMmuAreRefused : Prop :=
  ∀ (i : Instr) (s : State), s.CanAccess → i.rd ≠ 15 →
    (((i.access.crn = 2 ∨ i.access.crn = 3 ∨ i.access.crn = 5 ∨ i.access.crn = 6) ∧ s.cfg.memsys ≠ .mmu) ∨
      ((i.access.crn = 8 ∨ i.access.crn = 10) ∧ s.cfg.memsys = .none)) →
    exec i s = .refused .formWithoutMmu

/-- R132: the reserved values of opcode2 of register 0 are refused, and so is every other value of `CRm`. -/
def Obligations.ReservedOpcode2OfRegister0IsRefused : Prop :=
  ∀ (cond rd crm : BitVec 4) (op2 : BitVec 3) (s : State), s.CanAccess → rd ≠ 15 →
    (2 ≤ op2.toNat → exec (.otherAccess cond true 0 0 rd op2 0) s = .refused .reservedOpcode2) ∧
    (crm ≠ 0 → exec (.otherAccess cond true 0 0 rd op2 crm) s = .refused .accessWithoutMeaning)

/-- R133, R164, R183: the writes of register 0 and of the fault registers, and the read of register 12, are refused. -/
def Obligations.FormsNotShownAreRefused : Prop :=
  ∀ (cond rd crm : BitVec 4) (op2 : BitVec 3) (s : State), s.CanAccess → rd ≠ 15 →
    exec (.otherAccess cond false 0 0 rd op2 crm) s = .refused .writeOfRegister0 ∧
    (s.cfg.memsys = .mmu →
      exec (.otherAccess cond false 0 5 rd 0 0) s = .refused .writeOfFaultRegister ∧
      exec (.otherAccess cond false 0 5 rd 1 0) s = .refused .writeOfFaultRegister ∧
      exec (.otherAccess cond false 0 6 rd 0 0) s = .refused .writeOfFaultRegister ∧
      exec (.otherAccess cond false 0 6 rd 2 0) s = .refused .writeOfFaultRegister) ∧
    (s.cfg.hasVbar = true → exec (.otherAccess cond true 0 12 rd 0 0) s = .refused .readOfRegister12)

/-- R119, R194: an access of the catch-all row never answers a next state, in any state, and with privilege and `Rd` not
R15 it is refused. R117: without `HAS_PID` rows 20 and 21 are not admitted, and every access to register 13 is refused
for want of a meaning (log entry 30). -/
def Obligations.UnlistedAccessesAreRefused : Prop :=
  (∀ (cond : BitVec 4) (isRead : Bool) (op1 : BitVec 3) (crn rd : BitVec 4) (op2 : BitVec 3) (crm : BitVec 4)
    (s : State),
    (∀ t, exec (.otherAccess cond isRead op1 crn rd op2 crm) s ≠ .next t) ∧
    (s.CanAccess → rd ≠ 15 → ∃ reason, exec (.otherAccess cond isRead op1 crn rd op2 crm) s = .refused reason)) ∧
  ∀ (i : Instr) (s : State), s.CanAccess → i.rd ≠ 15 → s.cfg.hasPid = false → i.access.crn = 13 →
    exec i s = .refused .accessWithoutMeaning

/-- R121, R119: in a system that has the register, an access with a non-zero `op1` is refused for want of a meaning. -/
def Obligations.NonzeroOp1IsRefused : Prop :=
  ∀ (cond : BitVec 4) (isRead : Bool) (op1 : BitVec 3) (crn rd : BitVec 4) (op2 : BitVec 3) (crm : BitVec 4)
    (s : State), s.CanAccess → rd ≠ 15 → op1 ≠ 0 →
    (crn = 0 ∨ crn = 1 ∨ crn = 13 ∨ (crn = 12 ∧ s.cfg.hasVbar = true) ∨
      ((crn = 2 ∨ crn = 3 ∨ crn = 5 ∨ crn = 6 ∨ crn = 8) ∧ s.cfg.memsys = .mmu)) →
    exec (.otherAccess cond isRead op1 crn rd op2 crm) s = .refused .accessWithoutMeaning

/-! ### The memory system agent -/

/-- R200, R201, R204, R205: on its turn the memory system agent records a fault that can arise in one step, in the data
pair for a data access and in the instruction pair for a fetch: the code's bits where they are not drawn, the domain and
the address where they are valid; the other pair and everything else stay. Which pair is written is R201's own inference
(92 D15). That a system without an MMU and a domain that may be 0b10 are excluded is the model's (log entries 20, 21), and
so are the conditions that R209 derives (log entries 19, 37). -/
def Obligations.FaultIsRecordedInThePairOfItsKind : Prop :=
  ∀ (side : Side) (k : FaultCause) (code : FsrCode) (domain : BitVec 4) (address : Word) (rest : List Turn)
    (s : State), s.cfg.valid = true → s.cfg.memsys = .mmu → s.cfg.fsrCodes.code k = some code →
    s.faultMayArise k domain address = true →
    (k.domainValid = true → s.domainMayGovern domain 0b10 = false) →
    s.turns = .memSystem (.fault side k [] domain address) :: rest →
    ∃ (fsr : Fsr) (far : Word) (drawn : Nat),
      fsr.status &&& ~~~code.drawn = code.bits &&& ~~~code.drawn ∧
      (k.domainValid = true → fsr.domain = domain) ∧ (k.farValid = true → far = address) ∧
      step s = .next { s with
        turns := rest
        draws := drawn
        cp15 := match side with
          | .data => { s.cp15 with dfsr := fsr, dfar := far }
          | .instruction => { s.cp15 with ifsr := fsr, ifar := far } }

/-- R209: no fault is recorded that the rule excludes, and the turn changes nothing: of causes 4 to 11 none where M = 1
cannot govern, of causes 8 to 11 none where every value of the domain's field that may govern is 0b11 (R60), of cause 3
none at an aligned address or where A = 1 cannot govern. That A = 1 and a multiple of 4 decide of cause 3 is general
knowledge (log entry 37). Then what is refused: every fault without an MMU (log entry 20), one that can arise in a domain
whose field may be 0b10 (93 U4, log entry 21), and one without a code (log entry 22). -/
def Obligations.ExcludedFaultsAreNotRecorded : Prop :=
  ∀ (side : Side) (first : FaultCause) (others : List FaultCause) (domain : BitVec 4) (address : Word) (s : State),
    (s.cfg.memsys = .mmu →
    (∀ k ∈ first :: others,
      (4 ≤ k.number ∧ k.number ≤ 11 ∧
        ∀ c1 ∈ s.cp15.c1 :: s.cp15.window.c1, (s.cfg.controlValue c1).getLsbD 0 = false) ∨
      (8 ≤ k.number ∧ k.number ≤ 11 ∧
        ∀ d ∈ s.cp15.dacr :: s.cp15.window.dacr, d.extractLsb' (2 * domain.toNat) 2 = 0b11#2) ∨
      (k.number = 3 ∧ (address.extractLsb' 0 2 = 0#2 ∨
        ∀ c1 ∈ s.cp15.c1 :: s.cp15.window.c1, (s.cfg.controlValue c1).getLsbD 1 = false))) →
    memStep (.fault side first others domain address) s = .next s) ∧
    (s.cfg.memsys ≠ .mmu → memStep (.fault side first others domain address) s = .refused .formWithoutMmu) ∧
    (s.cfg.memsys = .mmu → s.faultMayArise first domain address = true → first.domainValid = true →
      (∃ d ∈ s.cp15.dacr :: s.cp15.window.dacr, d.extractLsb' (2 * domain.toNat) 2 = 0b10#2) →
      memStep (.fault side first [] domain address) s = .refused .reservedDomainAccessed) ∧
    (s.cfg.memsys = .mmu → s.faultMayArise first domain address = true → s.cfg.fsrCodes.code first = none →
      (first.domainValid = true →
        ∀ d ∈ s.cp15.dacr :: s.cp15.window.dacr, d.extractLsb' (2 * domain.toNat) 2 ≠ 0b10#2) →
      memStep (.fault side first [] domain address) s = .refused .causeWithoutCode)

/-- R202, R206: under the source's table, what a fault of each of the fourteen causes leaves in the status register of its
kind, in its domain field where the table calls it valid, and in the address register of its kind where the table calls it
valid; of the alignment fault's code bit 1 is left open, as R206 infers. That no fault of a cause outside the table is
recorded is the model's (log entry 22). -/
def Obligations.RecordedFaultIsTheTablesRow : Prop :=
  ∀ (side : Side) (k : FaultCause) (domain : BitVec 4) (address : Word) (s t : State), s.cfg.fsrCodes = .source →
    s.faultMayArise k domain address = true → memStep (.fault side k [] domain address) s = .next t →
    let r : Fsr := match side with | .data => t.cp15.dfsr | .instruction => t.cp15.ifsr
    let far : Word := match side with | .data => t.cp15.dfar | .instruction => t.cp15.ifar
    match k with
    | .terminal => r.status = 0b0010
    | .vector => r.status = 0b0000 ∧ far = address
    | .alignment => r.status.extractLsb' 2 2 = 0b00 ∧ r.status.getLsbD 0 = true ∧ far = address
    | .firstLevelAccess => r.status = 0b1100 ∧ far = address
    | .secondLevelAccess => r.status = 0b1110 ∧ r.domain = domain ∧ far = address
    | .sectionTranslation => r.status = 0b0101 ∧ far = address
    | .pageTranslation => r.status = 0b0111 ∧ r.domain = domain ∧ far = address
    | .sectionDomain => r.status = 0b1001 ∧ r.domain = domain ∧ far = address
    | .pageDomain => r.status = 0b1101 ∧ r.domain = domain ∧ far = address
    | .sectionPermission => r.status = 0b1111 ∧ r.domain = domain ∧ far = address
    | .pagePermission => r.status = 0b0100 ∧ r.domain = domain ∧ far = address
    | .sectionLineFetch => r.status = 0b0110 ∧ r.domain = domain ∧ far = address
    | .pageLineFetch => r.status = 0b1000 ∧ r.domain = domain ∧ far = address
    | .sectionNonLineFetch => r.status = 0b1010 ∧ r.domain = domain ∧ far = address
    | .pageNonLineFetch => False

/-- R203: of several causes of one access, those that can arise, the one highest in the table is recorded. -/
def Obligations.HighestPriorityCauseIsRecorded : Prop :=
  ∀ (side : Side) (first k : FaultCause) (others : List FaultCause) (domain : BitVec 4) (address : Word) (s : State),
    k ∈ first :: others → s.faultMayArise k domain address = true →
    (∀ j ∈ first :: others, s.faultMayArise j domain address = true → k.number ≤ j.number) →
    memStep (.fault side first others domain address) s = memStep (.fault side k [] domain address) s

/-- R212: where one of the causes can arise (R209), what is recorded does not depend on the record it overwrites. -/
def Obligations.LaterFaultOverwritesTheRecord : Prop :=
  ∀ (k : FaultCause) (others : List FaultCause) (domain : BitVec 4) (address : Word) (s : State) (fsr : Fsr)
    (far : Word), (∃ j ∈ k :: others, s.faultMayArise j domain address = true) →
    memStep (.fault .data k others domain address) { s with cp15 := { s.cp15 with dfsr := fsr, dfar := far } } =
      memStep (.fault .data k others domain address) s ∧
    memStep (.fault .instruction k others domain address)
        { s with cp15 := { s.cp15 with ifsr := fsr, ifar := far } } =
      memStep (.fault .instruction k others domain address) s

/-- R89: where there is an MMU and M = 1 may govern, held or superseded (log entries 17, 18), a fill adds its entry to the
TLB of its kind, whatever entry it is, and changes nothing else; otherwise it changes nothing. -/
def Obligations.TranslationsEnterOnlyWhereMMayGovern : Prop :=
  ∀ (side : Side) (e : TlbEntry) (s : State),
    (s.cfg.memsys = .mmu →
      (∃ c1 ∈ s.cp15.c1 :: s.cp15.window.c1, (s.cfg.controlValue c1).getLsbD 0 = true) →
      ∃ tlb : Tlb, (∀ x, x ∈ tlb ↔ x = e ∨ x ∈ s.cp15.tlb side) ∧
        memStep (.fill side e) s = .next { s with
          cp15 := match side with
            | .data => { s.cp15 with dtlb := tlb }
            | .instruction => { s.cp15 with itlb := tlb } }) ∧
    (s.cfg.memsys ≠ .mmu ∨ (∀ c1 ∈ s.cp15.c1 :: s.cp15.window.c1, (s.cfg.controlValue c1).getLsbD 0 = false) →
      memStep (.fill side e) s = .next s)

/-- R89: a drop takes exactly its entry out of the TLB of its kind, at any time, and changes nothing else. -/
def Obligations.DropRemovesExactlyTheEntry : Prop :=
  ∀ (side : Side) (e : TlbEntry) (s : State),
    ∃ tlb : Tlb, (∀ x, x ∈ tlb ↔ x ≠ e ∧ x ∈ s.cp15.tlb side) ∧
      memStep (.drop side e) s = .next { s with
        cp15 := match side with
          | .data => { s.cp15 with dtlb := tlb }
          | .instruction => { s.cp15 with itlb := tlb } }

/-- R96: a settle step leaves of the superseded values of its control the most recent ones, and changes nothing else: no
other control's window, no register, no TLB, no ghost. The window is the model's own (log entry 18). -/
def Obligations.SettleShrinksOneWindow : Prop :=
  ∀ (control : Control) (keep : Nat) (s : State),
    let w := s.cp15.window
    memStep (.settle control keep) s = .next { s with
      cp15 := { s.cp15 with
        window := match control with
          | .c1 => { w with c1 := w.c1.take keep }
          | .ttb => { w with ttb := w.ttb.take keep }
          | .dacr => { w with dacr := w.dacr.take keep }
          | .vbase => { w with vbase := w.vbase.take keep }
          | .pid => { w with pid := w.pid.take keep }
          | .itlb => { w with itlb := w.itlb.take keep }
          | .dtlb => { w with dtlb := w.dtlb.take keep } } }

/-- R96: an access that writes a control, or invalidates in a TLB, adds the value it supersedes to that control's window,
and no access changes another control's window. The window is the model's own (log entry 18). -/
def Obligations.WritesSupersedeOneValueOfTheirControl : Prop :=
  ∀ (i : Instr) (s t : State), exec i s = .next t →
    t.cp15.window =
      { c1 := if i.access = writeOf 1 0 0 then s.cp15.c1 :: s.cp15.window.c1 else s.cp15.window.c1
        ttb := if i.access = writeOf 2 0 0 then s.cp15.ttb :: s.cp15.window.ttb else s.cp15.window.ttb
        dacr := if i.access = writeOf 3 0 0 then s.cp15.dacr :: s.cp15.window.dacr else s.cp15.window.dacr
        vbase := if i.access = writeOf 12 0 0 then s.cp15.vbase :: s.cp15.window.vbase else s.cp15.window.vbase
        pid := if i.access = writeOf 13 0 0 then s.cp15.pid :: s.cp15.window.pid else s.cp15.window.pid
        itlb := if i.access.crn = 8 ∧ (i.access.crm = 5 ∨ i.access.crm = 7) then s.cp15.itlb :: s.cp15.window.itlb
          else s.cp15.window.itlb
        dtlb := if i.access.crn = 8 ∧ (i.access.crm = 6 ∨ i.access.crm = 7) then s.cp15.dtlb :: s.cp15.window.dtlb
          else s.cp15.window.dtlb }

/-- R96: from the write of register 1 on, the old values of a control bit and the new one may govern, and no other; the
same of a domain's field from the write of register 3 on; and with the window settled only the value held. The window is
the model's own (log entry 18). -/
def Obligations.OldAndNewControlMayGovern : Prop :=
  (∀ (cond rd : BitVec 4) (s t u : State) (bit : ControlBit) (v : Bool), exec (.mcrControl cond rd) s = .next t →
    (t.bitMayGovern bit v = true ↔ s.bitMayGovern bit v = true ∨ t.controlBit bit = v) ∧
    (memStep (.settle .c1 0) t = .next u → (u.bitMayGovern bit v = true ↔ t.controlBit bit = v))) ∧
  ∀ (cond rd : BitVec 4) (s t u : State) (domain : BitVec 4) (v : BitVec 2), exec (.mcrDacr cond rd) s = .next t →
    (t.domainMayGovern domain v = true ↔
      s.domainMayGovern domain v = true ∨ (s.readX rd).extractLsb' (2 * domain.toNat) 2 = v) ∧
    (memStep (.settle .dacr 0) t = .next u →
      (u.domainMayGovern domain v = true ↔ (s.readX rd).extractLsb' (2 * domain.toNat) 2 = v))

/-! ### The step, decoding and encoding -/

/-- R117, R115: when the bytes at an aligned program counter decode to an instruction that executes, the core's step is
`exec` of it; one whose condition fails only advances the program counter. A core turn first puts its two inputs in place
(log entries 7, 8, 9). A turn of the memory system agent is the agent's step on its event, with the turn taken. -/
def Obligations.StepRunsTheDecodedInstruction : Prop :=
  (∀ (s : State) (bytes rest : List Byte) (i : Instr), s.cfg.valid = true →
    fetchBytes s.mem s.pc = .ok bytes → decode s.cfg.fetchOrder bytes = .ok (i, rest) →
    (s.turns = [] →
      step s = if i.cond = 0b1110 ∨ s.condPassed = true then exec i s else .next { s with pc := s.pc + 4 }) ∧
    ∀ (p c : Bool) (later : List Turn), s.turns = .core p c :: later →
      step s =
        if i.cond = 0b1110 ∨ c = true then exec i { s with turns := later, privileged := p, condPassed := c }
        else .next { s with turns := later, privileged := p, condPassed := c, pc := s.pc + 4 }) ∧
  ∀ (s : State) (event : MemEvent) (later : List Turn), s.cfg.valid = true → s.turns = .memSystem event :: later →
    step s = memStep event { s with turns := later }

/-- Where a core step stops, on a turn listed or with none: at a program counter that is not word aligned (R71, log entry
14), where a byte of the word is not listed (R238, log entry 13), and on a word that does not decode (R3, R116). -/
def Obligations.StepStopsWithoutAnInstruction : Prop :=
  ∀ (s : State), s.cfg.valid = true →
    (s.turns = [] ∨ ∃ (p c : Bool) (later : List Turn), s.turns = .core p c :: later) →
    (s.pc.extractLsb' 0 2 ≠ 0 → step s = .fault .pcMisaligned) ∧
    (s.pc.extractLsb' 0 2 = 0 →
      (s.mem.read s.pc = none ∨ s.mem.read (s.pc + 1) = none ∨ s.mem.read (s.pc + 2) = none ∨
        s.mem.read (s.pc + 3) = none) →
      step s = .fault .noInstruction) ∧
    ∀ (b0 b1 b2 b3 : Byte) (e : DecodeError), s.pc.extractLsb' 0 2 = 0 →
      s.mem.read s.pc = some b0 → s.mem.read (s.pc + 1) = some b1 → s.mem.read (s.pc + 2) = some b2 →
      s.mem.read (s.pc + 3) = some b3 → decode s.cfg.fetchOrder [b0, b1, b2, b3] = .error e →
      step s = .refused (.undecodable e)

/-- A program comes to run by being listed (log entry 29): with a word that decodes to an instruction placed at an aligned
program counter, the next step executes that instruction. -/
def Obligations.PlacedWordIsRunNext : Prop :=
  ∀ (s : State) (nbits w : Nat) (i : Instr), s.cfg.valid = true → s.pc.extractLsb' 0 2 = 0 →
    decodeTableWord nbits w = some i →
    step (s.withFetchWord nbits w) =
      exec i { s with
        mem := s.mem.writeBytes s.pc (encodeBytes s.cfg.fetchOrder i)
        condPassed := true }

/-- R118, R113: the 21 words of R118's last column, and words written out in the spec with other registers, decode to the
instructions they stand for (a sanity statement), and row 1's decodes so under every condition but 0b1111. -/
def Obligations.SpecWordsDecode : Prop :=
  decodeWord 0xEE100F30 = .ok (.mrcCacheType 14 0) ∧ decodeWord 0xEE110F10 = .ok (.mrcControl 14 0) ∧
  decodeWord 0xEE010F10 = .ok (.mcrControl 14 0) ∧ decodeWord 0xEE120F10 = .ok (.mrcTtb 14 0) ∧
  decodeWord 0xEE020F10 = .ok (.mcrTtb 14 0) ∧ decodeWord 0xEE130F10 = .ok (.mrcDacr 14 0) ∧
  decodeWord 0xEE030F10 = .ok (.mcrDacr 14 0) ∧ decodeWord 0xEE150F10 = .ok (.mrcDfsr 14 0) ∧
  decodeWord 0xEE150F30 = .ok (.mrcIfsr 14 0) ∧ decodeWord 0xEE160F10 = .ok (.mrcDfar 14 0) ∧
  decodeWord 0xEE160F50 = .ok (.mrcIfar 14 0) ∧ decodeWord 0xEE080F15 = .ok (.mcrItlbAll 14 0) ∧
  decodeWord 0xEE080F35 = .ok (.mcrItlbEntry 14 0) ∧ decodeWord 0xEE080F16 = .ok (.mcrDtlbAll 14 0) ∧
  decodeWord 0xEE080F36 = .ok (.mcrDtlbEntry 14 0) ∧ decodeWord 0xEE080F17 = .ok (.mcrTlbAll 14 0) ∧
  decodeWord 0xEE080F37 = .ok (.mcrTlbEntry 14 0) ∧ decodeWord 0xEE0C0F10 = .ok (.mcrVbase 14 0) ∧
  decodeWord 0xEE0D0F10 = .ok (.mcrPid 14 0) ∧ decodeWord 0xEE1D0F10 = .ok (.mrcPid 14 0) ∧
  decodeWord 0xEE100F10 = .ok (.mrcMainId 14 0) ∧ decodeWord 0xEE101F30 = .ok (.mrcCacheType 14 1) ∧
  decodeWord 0xEE113F10 = .ok (.mrcControl 14 3) ∧ decodeWord 0xEE014F10 = .ok (.mcrControl 14 4) ∧
  decodeWord 0xEE163F50 = .ok (.mrcIfar 14 3) ∧ decodeWord 0xEE082F17 = .ok (.mcrTlbAll 14 2) ∧
  decodeWord 0xEE0C3F10 = .ok (.mcrVbase 14 3) ∧ decodeWord 0xEE1D1F10 = .ok (.mrcPid 14 1) ∧
  decodeWord 0x1E105F10 = .ok (.mrcMainId 1 5) ∧ decodeWord 0xFE100F10 = .error .conditionNever ∧
  ∀ cond : BitVec 4, cond ≠ 0b1111 → decodeWord (cond ++ 0xE100F10#28) = .ok (.mrcMainId cond 0)

/-- Decode and encode agree, for every well-formed instruction, in both byte orders, whatever bytes follow. -/
def Obligations.DecodeOfEncodeIsTheInstruction : Prop :=
  ∀ (i : Instr) (order : ByteOrder) (rest : List Byte), i.wf = true →
    decode order (encodeBytes order i ++ rest) = .ok (i, rest)

/-- Each word has one meaning: what a word decodes to is well formed and encodes back to the word. -/
def Obligations.EncodeOfDecodeIsTheWord : Prop :=
  ∀ (w : Word) (i : Instr), decodeWord w = .ok i → i.wf = true ∧ encode i = w

/-- R113, R115, R117: exactly the register transfers to coprocessor 15 whose condition is not 0b1111 are instructions. -/
def Obligations.ExactlyTheP15TransfersDecode : Prop :=
  ∀ w : Word, (∃ i, decodeWord w = .ok i) ↔
    w.extractLsb' 24 4 = 0b1110#4 ∧ w.getLsbD 4 = true ∧ w.extractLsb' 8 4 = 0b1111#4 ∧
      w.extractLsb' 28 4 ≠ 0b1111#4

/-! ### The whole machine -/

/-- Every step keeps the invariant of the state: canonical memory, aligned program counter, fixed control bits at their
fixed values, no state in the low bits of register 2, TLBs without repeats. -/
def Obligations.StepKeepsTheInvariant : Prop :=
  ∀ s t : State, s.Inv → step s = .next t → t.Inv

/-- The invariant holds at the start of every run, under every configuration and every reset state of CP15 whose TLBs are
sets, and at the model's reset state. -/
def Obligations.RunsStartInTheInvariant : Prop :=
  (∀ (cfg : Config) (reset : Cp15), reset.itlb.Nodup → reset.dtlb.Nodup → (State.start cfg reset).Inv) ∧
    State.reset.Inv

/-- R153 and 93 U4: where no domain field in use is 0b10, no step brings one in, and the memory system agent refuses
nothing for one. -/
def Obligations.StepKeepsDomainsUnreserved : Prop :=
  (∀ s t : State, s.DomainsInUse → step s = .next t → t.DomainsInUse) ∧
    ∀ (s : State) (event : MemEvent), s.DomainsInUse → memStep event s ≠ .refused .reservedDomainAccessed

/-- R62, R73: a word kept as a ghost is one a read can return: every step keeps that. -/
def Obligations.StepKeepsGhostsReadable : Prop :=
  ∀ s t : State, s.GhostsReadable → step s = .next t → t.GhostsReadable

/-- R74: what reset leaves: constants, fixed control bits, and no ghost; every other part is as the parameter gives it
(92 D14), but for the low bits of register 2, which hold no state (R75) and stand at 0 by the model's choice (log entry
25). -/
def Obligations.RunsStartAsTheResetTableSays : Prop :=
  ∀ (cfg : Config) (reset : Cp15),
    (State.start cfg reset).cfg.midrValue = cfg.midrValue ∧ (State.start cfg reset).cfg.ctrValue = cfg.ctrValue ∧
    (∀ bit : ControlBit, (State.start cfg reset).cp15.c1.getLsbD bit.index =
      match cfg.kind bit with
      | .rw => reset.c1.getLsbD bit.index
      | .fixed0 => false
      | .fixed1 => true) ∧
    (∀ r, (State.start cfg reset).cp15.lastRead.get r = none) ∧
    (∀ n, (State.start cfg reset).cp15.ttb.getLsbD n = (decide (cfg.ttbLowBits ≤ n) && reset.ttb.getLsbD n)) ∧
    (State.start cfg reset).cp15.dacr = reset.dacr ∧
    (State.start cfg reset).cp15.dfsr = reset.dfsr ∧ (State.start cfg reset).cp15.ifsr = reset.ifsr ∧
    (State.start cfg reset).cp15.dfar = reset.dfar ∧ (State.start cfg reset).cp15.ifar = reset.ifar ∧
    (State.start cfg reset).cp15.itlb = reset.itlb ∧ (State.start cfg reset).cp15.dtlb = reset.dtlb ∧
    (State.start cfg reset).cp15.vbase = reset.vbase ∧ (State.start cfg reset).cp15.pid = reset.pid

/-- R29, R39, R4: no step changes the main ID, the cache type or any other parameter. R11 item 4: CP15 performs no memory
access; that instruction memory is a listing no step changes is the model's (log entry 11). -/
def Obligations.StepKeepsTheConstants : Prop :=
  ∀ s t : State, step s = .next t → t.cfg = s.cfg ∧ t.mem = s.mem

/-- R83: a read changes no architectural state of CP15: only the ghost. -/
def Obligations.ReadsChangeOnlyTheGhost : Prop :=
  ∀ (i : Instr) (s t : State), i.access.isRead = true → exec i s = .next t →
    t.cp15 = { s.cp15 with lastRead := t.cp15.lastRead }

/-- R83, R111: a write changes no core register, and the frame of every access: the configuration, memory, the inputs and
the turns stay, and the program counter advances by 4. -/
def Obligations.AccessesChangeRdOrCp15Only : Prop :=
  ∀ (i : Instr) (s t : State), exec i s = .next t →
    t.cfg = s.cfg ∧ t.mem = s.mem ∧ t.privileged = s.privileged ∧ t.condPassed = s.condPassed ∧ t.turns = s.turns ∧
      t.pc = s.pc + 4 ∧ (∀ r : BitVec 4, r.toNat < 15 → r ≠ i.rd → t.readX r = s.readX r) ∧
      (i.access.isRead = false → t.regs = s.regs)

/-- Each register of CP15 is changed only by the write of its own number. -/
def Obligations.OnlyItsOwnWriteChangesARegister : Prop :=
  ∀ (i : Instr) (s t : State), exec i s = .next t →
    (i.access ≠ writeOf 1 0 0 → t.cp15.c1 = s.cp15.c1) ∧
    (i.access ≠ writeOf 2 0 0 → t.cp15.ttb = s.cp15.ttb) ∧
    (i.access ≠ writeOf 3 0 0 → t.cp15.dacr = s.cp15.dacr) ∧
    (i.access ≠ writeOf 12 0 0 → t.cp15.vbase = s.cp15.vbase) ∧
    (i.access ≠ writeOf 13 0 0 → t.cp15.pid = s.cp15.pid) ∧
    t.cp15.dfsr = s.cp15.dfsr ∧ t.cp15.ifsr = s.cp15.ifsr ∧ t.cp15.dfar = s.cp15.dfar ∧ t.cp15.ifar = s.cp15.ifar

/-- R216, as isolation: on a core turn without privilege, listed as one or with no turn listed and no privilege held, no
state of CP15 and no core register changes, whatever instruction is at the program counter. -/
def Obligations.UnprivilegedCodeCannotChangeCp15 : Prop :=
  ∀ (s t : State) (c : Bool) (rest : List Turn),
    s.turns = .core false c :: rest ∨ (s.turns = [] ∧ s.privileged = false) → step s = .next t →
    t.cp15 = s.cp15 ∧ t.regs = s.regs

/-- R10, as noninterference: the free values an access draws reach only the reserved field of the word it returns: with
another draw the access still completes, CP15 holds the same, and the registers agree outside the reserved fields. The
counter of draws is the model's own (log entry 5). -/
def Obligations.DrawsReachOnlyReservedFields : Prop :=
  ∀ (i : Instr) (s t : State) (n : Nat), exec i s = .next t →
    ∃ u, exec i { s with draws := n } = .next u ∧ u.pc = t.pc ∧
      { u.cp15 with lastRead := t.cp15.lastRead } = t.cp15 ∧
      (∀ r : BitVec 4, r.toNat < 15 → r ≠ i.rd → u.readX r = t.readX r) ∧
      u.readX i.rd &&& ~~~drawnBits s.cfg i.access.crn = t.readX i.rd &&& ~~~drawnBits s.cfg i.access.crn
end

