-- ==== Sys2Proof/Laws/Bits.lean ====
section
/-!
SUPPORT. The bit-field operations bit by bit: `mergeBits`, the control-bit words, the assembled instruction word.
-/
namespace Sys2Proof

@[simp] theorem getLsbD_mergeBits {w : Nat} (mask new old : BitVec w) (n : Nat) :
    (mergeBits mask new old).getLsbD n = if mask.getLsbD n then new.getLsbD n else old.getLsbD n := by
  simp only [mergeBits, BitVec.getLsbD_or, BitVec.getLsbD_and, BitVec.getLsbD_not]
  by_cases h : n < w
  · cases mask.getLsbD n <;> simp [h]
  · simp [BitVec.getLsbD_of_ge _ _ (Nat.le_of_not_lt h)]

@[simp] theorem getElem_mergeBits {w : Nat} (mask new old : BitVec w) (n : Nat) (h : n < w) :
    (mergeBits mask new old)[n] = if mask[n] then new[n] else old[n] := by
  simpa [h] using getLsbD_mergeBits mask new old n

/-- Inserting twice under one mask is inserting once. -/
theorem mergeBits_mergeBits {w : Nat} (mask a b c : BitVec w) :
    mergeBits mask a (mergeBits mask b c) = mergeBits mask a c := by
  apply BitVec.eq_of_getLsbD_eq
  intro n _
  simp only [getLsbD_mergeBits]
  split <;> rfl

/-- What a masked field of a merge is: outside the mask, the old bits. -/
theorem mergeBits_and_not {w : Nat} (mask new old : BitVec w) :
    mergeBits mask new old &&& ~~~mask = old &&& ~~~mask := by
  apply BitVec.eq_of_getLsbD_eq
  intro n hn
  simp only [BitVec.getLsbD_and, BitVec.getLsbD_not, getLsbD_mergeBits]
  cases mask.getLsbD n <;> simp

/-- What a masked field of a merge is: inside the mask, the new bits. -/
theorem mergeBits_and {w : Nat} (mask new old : BitVec w) :
    mergeBits mask new old &&& mask = new &&& mask := by
  apply BitVec.eq_of_getLsbD_eq
  intro n hn
  simp only [BitVec.getLsbD_and, getLsbD_mergeBits]
  cases mask.getLsbD n <;> simp

/-- A control bit of a word built by `controlBitsWhere`. -/
@[simp] theorem getLsbD_controlBitsWhere (f : ControlBit → Bool) (bit : ControlBit) :
    (controlBitsWhere f).getLsbD bit.index = f bit := by
  have ite_bit (bit : ControlBit) (n : Nat) :
      (if f bit then BitVec.twoPow 16 bit.index else 0).getLsbD n =
        (f bit && (BitVec.twoPow 16 bit.index).getLsbD n) := by
    cases f bit <;> simp
  simp only [controlBitsWhere, ControlBit.all, List.foldr, BitVec.getLsbD_or, ite_bit]
  cases bit <;> simp [ControlBit.index, BitVec.getElem_twoPow]

@[simp] theorem Config.getLsbD_rwMask (cfg : Config) (bit : ControlBit) :
    cfg.rwMask.getLsbD bit.index = (cfg.kind bit == .rw) := getLsbD_controlBitsWhere _ _

@[simp] theorem Config.getLsbD_fixedOnes (cfg : Config) (bit : ControlBit) :
    cfg.fixedOnes.getLsbD bit.index = (cfg.kind bit == .fixed1) := getLsbD_controlBitsWhere _ _

/-- R140, bit by bit: the held bit where the kind is `rw`, the fixed value otherwise. -/
theorem Config.getLsbD_controlValue (cfg : Config) (held : BitVec 16) (bit : ControlBit) :
    (cfg.controlValue held).getLsbD bit.index =
      match cfg.kind bit with
      | .rw => held.getLsbD bit.index
      | .fixed0 => false
      | .fixed1 => true := by
  simp only [Config.controlValue, getLsbD_mergeBits, Config.getLsbD_rwMask, Config.getLsbD_fixedOnes]
  cases cfg.kind bit <;> simp

/-- Every bit number of register 1's control bits is a control bit's. -/
theorem ControlBit.exists_index {n : Nat} (h : n < 16) : ∃ bit : ControlBit, bit.index = n := by
  have all : ∀ n : Fin 16, ∃ bit ∈ ControlBit.all, bit.index = n.val := by decide
  obtain ⟨bit, -, hb⟩ := all ⟨n, h⟩
  exact ⟨bit, hb⟩

/-- The value a read sees is canonical: it holds the fixed bits at their fixed values. -/
@[simp] theorem Config.controlValue_controlValue (cfg : Config) (held : BitVec 16) :
    cfg.controlValue (cfg.controlValue held) = cfg.controlValue held := by
  apply BitVec.eq_of_getLsbD_eq
  intro n hn
  obtain ⟨bit, rfl⟩ := ControlBit.exists_index hn
  rw [Config.getLsbD_controlValue, Config.getLsbD_controlValue]
  cases cfg.kind bit <;> rfl

/-- A write of register 1 keeps the canonical form. -/
theorem Config.controlValue_merge (cfg : Config) (w c1 : BitVec 16) (h : cfg.controlValue c1 = c1) :
    cfg.controlValue (mergeBits cfg.rwMask w c1) = mergeBits cfg.rwMask w c1 := by
  apply BitVec.eq_of_getLsbD_eq
  intro n hn
  obtain ⟨bit, rfl⟩ := ControlBit.exists_index hn
  have hb := congrArg (fun x => x.getLsbD bit.index) h
  simp only [Config.getLsbD_controlValue, getLsbD_mergeBits, Config.getLsbD_rwMask] at hb ⊢
  cases hk : cfg.kind bit <;> simp_all

/-- `rw` bits and fixed ones do not overlap. -/
theorem Config.fixedOnes_and_not_rwMask (cfg : Config) : cfg.fixedOnes &&& ~~~cfg.rwMask = cfg.fixedOnes := by
  apply BitVec.eq_of_getLsbD_eq
  intro n hn
  obtain ⟨bit, rfl⟩ := ControlBit.exists_index hn
  simp only [BitVec.getLsbD_and, BitVec.getLsbD_not, hn, Config.getLsbD_fixedOnes, Config.getLsbD_rwMask]
  cases cfg.kind bit <;> rfl

/-! ### The assembled instruction word, field by field (30_encoding.md R113) -/

/-- The assembled word, bit by bit. -/
theorem getLsbD_assemble (cond : BitVec 4) (a : Access) (rd : BitVec 4) {n : Nat} (hn : n < 32) :
    (assemble cond a rd).getLsbD n =
      if n < 4 then a.crm.getLsbD n
      else if n < 5 then true
      else if n < 8 then a.op2.getLsbD (n - 5)
      else if n < 12 then true
      else if n < 16 then rd.getLsbD (n - 12)
      else if n < 20 then a.crn.getLsbD (n - 16)
      else if n < 21 then a.isRead
      else if n < 24 then a.op1.getLsbD (n - 21)
      else if n < 28 then decide (n ≠ 24)
      else cond.getLsbD (n - 28) := by
  simp only [assemble, BitVec.getLsbD_append, BitVec.getLsbD_ofBool]
  interval_cases n <;> simp

@[simp] theorem wordCond_assemble (cond : BitVec 4) (a : Access) (rd : BitVec 4) :
    wordCond (assemble cond a rd) = cond := by
  apply BitVec.eq_of_getLsbD_eq
  intro n hn
  simp only [wordCond, BitVec.getLsbD_extractLsb']
  rw [getLsbD_assemble _ _ _ (by omega)]
  interval_cases n <;> simp

@[simp] theorem wordRd_assemble (cond : BitVec 4) (a : Access) (rd : BitVec 4) :
    wordRd (assemble cond a rd) = rd := by
  apply BitVec.eq_of_getLsbD_eq
  intro n hn
  simp only [wordRd, BitVec.getLsbD_extractLsb']
  rw [getLsbD_assemble _ _ _ (by omega)]
  interval_cases n <;> simp

@[simp] theorem coprocessor_assemble (cond : BitVec 4) (a : Access) (rd : BitVec 4) :
    (assemble cond a rd).extractLsb' 8 4 = 0b1111#4 := by
  apply BitVec.eq_of_getLsbD_eq
  intro n hn
  simp only [BitVec.getLsbD_extractLsb']
  rw [getLsbD_assemble _ _ _ (by omega)]
  interval_cases n <;> simp

theorem fixedField_assemble (cond : BitVec 4) (a : Access) (rd : BitVec 4) :
    (assemble cond a rd).extractLsb' 24 4 = 0b1110#4 := by
  apply BitVec.eq_of_getLsbD_eq
  intro n hn
  simp only [BitVec.getLsbD_extractLsb']
  rw [getLsbD_assemble _ _ _ (by omega)]
  interval_cases n <;> simp

@[simp] theorem isRegisterTransfer_assemble (cond : BitVec 4) (a : Access) (rd : BitVec 4) :
    isRegisterTransfer (assemble cond a rd) = true := by
  simp only [isRegisterTransfer, fixedField_assemble]
  rw [getLsbD_assemble _ _ _ (by omega)]
  rfl

@[simp] theorem wordAccess_assemble (cond : BitVec 4) (a : Access) (rd : BitVec 4) :
    wordAccess (assemble cond a rd) = a := by
  obtain ⟨isRead, op1, crn, crm, op2⟩ := a
  simp only [wordAccess, Access.mk.injEq]
  refine ⟨by rw [getLsbD_assemble _ _ _ (by omega)]; rfl, ?_, ?_, ?_, ?_⟩
  all_goals
    apply BitVec.eq_of_getLsbD_eq
    intro n hn
    simp only [BitVec.getLsbD_extractLsb']
    rw [getLsbD_assemble _ _ _ (by omega)]
    interval_cases n <;> simp

/-- A word is the assembly of its fields where it is a register transfer to coprocessor 15. -/
theorem assemble_fields (w : Word) (ht : isRegisterTransfer w = true) (hc : w.extractLsb' 8 4 = 0b1111) :
    assemble (wordCond w) (wordAccess w) (wordRd w) = w := by
  simp only [isRegisterTransfer, Bool.and_eq_true, beq_iff_eq] at ht
  obtain ⟨h24, h4⟩ := ht
  have hb (n : Nat) : (w.extractLsb' 24 4).getLsbD n = (0b1110#4).getLsbD n := by rw [h24]; rfl
  have hd (n : Nat) : (w.extractLsb' 8 4).getLsbD n = (0b1111#4).getLsbD n := by rw [hc]; rfl
  simp only [BitVec.getLsbD_extractLsb'] at hb hd
  apply BitVec.eq_of_getLsbD_eq
  intro n hn
  rw [getLsbD_assemble _ _ _ hn]
  simp only [wordCond, wordRd, wordAccess, BitVec.getLsbD_extractLsb']
  by_cases f : 24 ≤ n ∧ n < 28
  · have := hb (n - 24)
    obtain ⟨_, _⟩ := f
    interval_cases n <;> simp_all
  by_cases f' : 8 ≤ n ∧ n < 12
  · have := hd (n - 8)
    obtain ⟨_, _⟩ := f'
    interval_cases n <;> simp_all
  interval_cases n <;> simp_all

/-- Four bytes make the word they were split from. -/
theorem joinBytes_splitBytes (w : Word) :
    joinBytes .little (w.extractLsb' 0 8) (w.extractLsb' 8 8) (w.extractLsb' 16 8) (w.extractLsb' 24 8) = w ∧
      joinBytes .big (w.extractLsb' 24 8) (w.extractLsb' 16 8) (w.extractLsb' 8 8) (w.extractLsb' 0 8) = w := by
  constructor <;>
  · apply BitVec.eq_of_getLsbD_eq
    intro n hn
    simp only [joinBytes, BitVec.getLsbD_append, BitVec.getLsbD_extractLsb']
    interval_cases n <;> simp

end Sys2Proof
end

