-- ==== Sys2Proof/Laws/Decode.lean ====
section
/-!
SUPPORT. The lookup of an operand tuple, the decoder on one word and on the bytes of one word, each said once.
-/
namespace Sys2Proof

/-- The row of a listed tuple. -/
theorem find_of_isListed {a : Access} (h : a.isListed = true) :
    ∃ r ∈ admittedRows, r.1 = a ∧ admittedRows.find? (fun r => r.1 == a) = some r := by
  cases hf : admittedRows.find? (fun r => r.1 == a) with
  | none =>
    rw [List.find?_eq_none] at hf
    simp only [Access.isListed, List.any_eq_true] at h
    obtain ⟨r, hr, h⟩ := h
    exact absurd h (hf r hr)
  | some r => exact ⟨r, List.mem_of_find?_eq_some hf, by simpa using List.find?_some hf, rfl⟩

/-- An unlisted tuple has no row. -/
theorem find_of_not_isListed {a : Access} (h : a.isListed = false) :
    admittedRows.find? (fun r => r.1 == a) = none := by
  rw [List.find?_eq_none]
  simp only [Access.isListed, List.any_eq_false] at h
  exact fun r hr => h r hr

/-- Each row's constructor carries the row's tuple and the two free fields. -/
theorem admittedRows_fields (cond rd : BitVec 4) :
    ∀ r ∈ admittedRows, (r.2 cond rd).access = r.1 ∧ (r.2 cond rd).cond = cond ∧ (r.2 cond rd).rd = rd ∧
      (r.2 cond rd).tupleOk = true := by
  simp [admittedRows, Instr.access, Instr.cond, Instr.rd, Instr.operands, Instr.tupleOk]

/-- The instruction of a tuple carries that tuple, the condition and the register it was given. -/
theorem Access.instr_fields (a : Access) (cond rd : BitVec 4) :
    (a.instr cond rd).access = a ∧ (a.instr cond rd).cond = cond ∧ (a.instr cond rd).rd = rd ∧
      (a.instr cond rd).tupleOk = true := by
  cases h : a.isListed with
  | false =>
    rw [Access.instr, find_of_not_isListed h]
    exact ⟨rfl, rfl, rfl, by show (!Access.isListed _) = true; rw [h]; rfl⟩
  | true =>
    obtain ⟨r, hr, ha, hf⟩ := find_of_isListed h
    rw [Access.instr, hf]
    have := admittedRows_fields cond rd r hr
    rwa [ha] at this

/-- What the decoder of a word accepts, and what it answers. -/
theorem decodeWord_eq_ok_iff {w : Word} {i : Instr} :
    decodeWord w = .ok i ↔
      isRegisterTransfer w = true ∧ w.extractLsb' 8 4 = 0b1111 ∧ wordCond w ≠ 0b1111 ∧
        i = (wordAccess w).instr (wordCond w) (wordRd w) := by
  unfold decodeWord
  constructor
  · intro h
    split at h
    · cases h
    · split at h
      · cases h
      · split at h
        · cases h
        · cases h; simp_all
  · rintro ⟨h1, h2, h3, rfl⟩
    simp_all

/-- The decoder reads from the bytes of a word what it reads from the word, and leaves the bytes after it. -/
theorem decode_splitBytes (order : ByteOrder) (w : Word) (rest : List Byte) :
    decode order (splitBytes order w ++ rest) = (decodeWord w).map (·, rest) := by
  cases order with
  | little =>
    simp only [splitBytes, decode, List.cons_append, List.nil_append, (joinBytes_splitBytes w).1]
    cases decodeWord w <;> rfl
  | big =>
    simp only [splitBytes, decode, List.cons_append, List.nil_append, (joinBytes_splitBytes w).2]
    cases decodeWord w <;> rfl

end Sys2Proof
end

