-- ==== Sys2Proof/Laws/State.lean ====
section
/-!
SUPPORT. One lemma per field for each update of the state, so that no proof unfolds a record update.
-/
namespace Sys2Proof.Machine

/-! ### `State.advance` -/

@[simp] theorem State.advance_cfg (s : State) : (s.advance).cfg = s.cfg := rfl
@[simp] theorem State.advance_regs (s : State) : (s.advance).regs = s.regs := rfl
@[simp] theorem State.advance_pc (s : State) : (s.advance).pc = s.pc + 4 := rfl
@[simp] theorem State.advance_privileged (s : State) : (s.advance).privileged = s.privileged := rfl
@[simp] theorem State.advance_condPassed (s : State) : (s.advance).condPassed = s.condPassed := rfl
@[simp] theorem State.advance_cp15 (s : State) : (s.advance).cp15 = s.cp15 := rfl
@[simp] theorem State.advance_mem (s : State) : (s.advance).mem = s.mem := rfl
@[simp] theorem State.advance_turns (s : State) : (s.advance).turns = s.turns := rfl
@[simp] theorem State.advance_draws (s : State) : (s.advance).draws = s.draws := rfl

/-! ### `State.commit` -/

@[simp] theorem State.commit_cfg (s : State) (c : Cp15) : (s.commit c).cfg = s.cfg := rfl
@[simp] theorem State.commit_regs (s : State) (c : Cp15) : (s.commit c).regs = s.regs := rfl
@[simp] theorem State.commit_pc (s : State) (c : Cp15) : (s.commit c).pc = s.pc + 4 := rfl
@[simp] theorem State.commit_privileged (s : State) (c : Cp15) : (s.commit c).privileged = s.privileged := rfl
@[simp] theorem State.commit_condPassed (s : State) (c : Cp15) : (s.commit c).condPassed = s.condPassed := rfl
@[simp] theorem State.commit_cp15 (s : State) (c : Cp15) : (s.commit c).cp15 = c := rfl
@[simp] theorem State.commit_mem (s : State) (c : Cp15) : (s.commit c).mem = s.mem := rfl
@[simp] theorem State.commit_turns (s : State) (c : Cp15) : (s.commit c).turns = s.turns := rfl
@[simp] theorem State.commit_draws (s : State) (c : Cp15) : (s.commit c).draws = s.draws := rfl

/-! ### `State.withInputs` -/

@[simp] theorem State.withInputs_cfg (s : State) (p c : Bool) : (s.withInputs p c).cfg = s.cfg := rfl
@[simp] theorem State.withInputs_regs (s : State) (p c : Bool) : (s.withInputs p c).regs = s.regs := rfl
@[simp] theorem State.withInputs_pc (s : State) (p c : Bool) : (s.withInputs p c).pc = s.pc := rfl
@[simp] theorem State.withInputs_privileged (s : State) (p c : Bool) : (s.withInputs p c).privileged = p := rfl
@[simp] theorem State.withInputs_condPassed (s : State) (p c : Bool) : (s.withInputs p c).condPassed = c := rfl
@[simp] theorem State.withInputs_cp15 (s : State) (p c : Bool) : (s.withInputs p c).cp15 = s.cp15 := rfl
@[simp] theorem State.withInputs_mem (s : State) (p c : Bool) : (s.withInputs p c).mem = s.mem := rfl
@[simp] theorem State.withInputs_turns (s : State) (p c : Bool) : (s.withInputs p c).turns = s.turns := rfl
@[simp] theorem State.withInputs_draws (s : State) (p c : Bool) : (s.withInputs p c).draws = s.draws := rfl

/-! ### `State.placeWord` -/

@[simp] theorem State.placeWord_cfg (s : State) (w : Word) : (s.placeWord w).cfg = s.cfg := rfl
@[simp] theorem State.placeWord_regs (s : State) (w : Word) : (s.placeWord w).regs = s.regs := rfl
@[simp] theorem State.placeWord_pc (s : State) (w : Word) : (s.placeWord w).pc = s.pc := rfl
@[simp] theorem State.placeWord_privileged (s : State) (w : Word) : (s.placeWord w).privileged = s.privileged := rfl
@[simp] theorem State.placeWord_condPassed (s : State) (w : Word) : (s.placeWord w).condPassed = s.condPassed := rfl
@[simp] theorem State.placeWord_cp15 (s : State) (w : Word) : (s.placeWord w).cp15 = s.cp15 := rfl
@[simp] theorem State.placeWord_mem (s : State) (w : Word) : (s.placeWord w).mem = s.mem.writeBytes s.pc (splitBytes s.cfg.fetchOrder w) := rfl
@[simp] theorem State.placeWord_turns (s : State) (w : Word) : (s.placeWord w).turns = s.turns := rfl
@[simp] theorem State.placeWord_draws (s : State) (w : Word) : (s.placeWord w).draws = s.draws := rfl

/-! ### `State.recordFault` -/

@[simp] theorem State.recordFault_cfg (s : State) (side : Side) (k : FaultCause) (code : FsrCode) (d : BitVec 4) (a : Word) : (s.recordFault side k code d a).cfg = s.cfg := rfl
@[simp] theorem State.recordFault_regs (s : State) (side : Side) (k : FaultCause) (code : FsrCode) (d : BitVec 4) (a : Word) : (s.recordFault side k code d a).regs = s.regs := rfl
@[simp] theorem State.recordFault_pc (s : State) (side : Side) (k : FaultCause) (code : FsrCode) (d : BitVec 4) (a : Word) : (s.recordFault side k code d a).pc = s.pc := rfl
@[simp] theorem State.recordFault_privileged (s : State) (side : Side) (k : FaultCause) (code : FsrCode) (d : BitVec 4) (a : Word) : (s.recordFault side k code d a).privileged = s.privileged := rfl
@[simp] theorem State.recordFault_condPassed (s : State) (side : Side) (k : FaultCause) (code : FsrCode) (d : BitVec 4) (a : Word) : (s.recordFault side k code d a).condPassed = s.condPassed := rfl
@[simp] theorem State.recordFault_cp15 (s : State) (side : Side) (k : FaultCause) (code : FsrCode) (d : BitVec 4) (a : Word) : (s.recordFault side k code d a).cp15 = 
    s.cp15.recordPair side (fsrOf k code d (Config.freeWord s.draws) (Config.freeWord (s.draws + 1)))
      (farOf k a (Config.freeWord (s.draws + 2))) := rfl
@[simp] theorem State.recordFault_mem (s : State) (side : Side) (k : FaultCause) (code : FsrCode) (d : BitVec 4) (a : Word) : (s.recordFault side k code d a).mem = s.mem := rfl
@[simp] theorem State.recordFault_turns (s : State) (side : Side) (k : FaultCause) (code : FsrCode) (d : BitVec 4) (a : Word) : (s.recordFault side k code d a).turns = s.turns := rfl
@[simp] theorem State.recordFault_draws (s : State) (side : Side) (k : FaultCause) (code : FsrCode) (d : BitVec 4) (a : Word) : (s.recordFault side k code d a).draws = s.draws + 3 := rfl

/-! ### `State.dropTlb` -/

@[simp] theorem State.dropTlb_cfg (s : State) (side : Side) (e : TlbEntry) : (s.dropTlb side e).cfg = s.cfg := rfl
@[simp] theorem State.dropTlb_regs (s : State) (side : Side) (e : TlbEntry) : (s.dropTlb side e).regs = s.regs := rfl
@[simp] theorem State.dropTlb_pc (s : State) (side : Side) (e : TlbEntry) : (s.dropTlb side e).pc = s.pc := rfl
@[simp] theorem State.dropTlb_privileged (s : State) (side : Side) (e : TlbEntry) : (s.dropTlb side e).privileged = s.privileged := rfl
@[simp] theorem State.dropTlb_condPassed (s : State) (side : Side) (e : TlbEntry) : (s.dropTlb side e).condPassed = s.condPassed := rfl
@[simp] theorem State.dropTlb_cp15 (s : State) (side : Side) (e : TlbEntry) : (s.dropTlb side e).cp15 = s.cp15.withTlb side ((s.cp15.tlb side).remove e) := rfl
@[simp] theorem State.dropTlb_mem (s : State) (side : Side) (e : TlbEntry) : (s.dropTlb side e).mem = s.mem := rfl
@[simp] theorem State.dropTlb_turns (s : State) (side : Side) (e : TlbEntry) : (s.dropTlb side e).turns = s.turns := rfl
@[simp] theorem State.dropTlb_draws (s : State) (side : Side) (e : TlbEntry) : (s.dropTlb side e).draws = s.draws := rfl

/-! ### `State.writeX`: with `Rd` in 0 to 14 only the registers change. -/

theorem State.writeX_eq (s : State) {i : BitVec 4} (h : i.toNat < 15) (v : Word) :
    s.writeX i v = { s with regs := s.regs.set i.toNat v } := by
  simp [State.writeX, h]

@[simp] theorem State.writeX_cfg (s : State) (i : BitVec 4) (v : Word) : (s.writeX i v).cfg = s.cfg := by
  unfold State.writeX; split <;> rfl
@[simp] theorem State.writeX_privileged (s : State) (i : BitVec 4) (v : Word) : (s.writeX i v).privileged = s.privileged := by
  unfold State.writeX; split <;> rfl
@[simp] theorem State.writeX_condPassed (s : State) (i : BitVec 4) (v : Word) : (s.writeX i v).condPassed = s.condPassed := by
  unfold State.writeX; split <;> rfl
@[simp] theorem State.writeX_cp15 (s : State) (i : BitVec 4) (v : Word) : (s.writeX i v).cp15 = s.cp15 := by
  unfold State.writeX; split <;> rfl
@[simp] theorem State.writeX_mem (s : State) (i : BitVec 4) (v : Word) : (s.writeX i v).mem = s.mem := by
  unfold State.writeX; split <;> rfl
@[simp] theorem State.writeX_turns (s : State) (i : BitVec 4) (v : Word) : (s.writeX i v).turns = s.turns := by
  unfold State.writeX; split <;> rfl
@[simp] theorem State.writeX_draws (s : State) (i : BitVec 4) (v : Word) : (s.writeX i v).draws = s.draws := by
  unfold State.writeX; split <;> rfl

theorem State.writeX_pc (s : State) {i : BitVec 4} (h : i.toNat < 15) (v : Word) : (s.writeX i v).pc = s.pc := by
  rw [State.writeX_eq s h]

theorem State.writeX_regs (s : State) {i : BitVec 4} (h : i.toNat < 15) (v : Word) :
    (s.writeX i v).regs = s.regs.set i.toNat v := by
  rw [State.writeX_eq s h]

/-- A register reads as it was written. -/
theorem State.readX_writeX (s : State) {i : BitVec 4} (h : i.toNat < 15) (v : Word) : (s.writeX i v).readX i = v := by
  simp [State.readX, State.writeX_eq s h, h]

/-- A write of a register leaves every other one alone. -/
theorem State.readX_writeX_of_ne (s : State) {i j : BitVec 4} (hi : i.toNat < 15) (hj : j.toNat < 15) (hij : j ≠ i)
    (v : Word) : (s.writeX i v).readX j = s.readX j := by
  have hne : i.toNat ≠ j.toNat := fun e => hij (BitVec.eq_of_toNat_eq e.symm)
  simp [State.readX, State.writeX_eq s hi, hj, hne]

/-- `Rd` is not R15 exactly when it names one of R0 to R14. -/
theorem rd_lt_of_ne {rd : BitVec 4} (h : rd ≠ 15) : rd.toNat < 15 := by
  have : rd.toNat ≠ 15 := fun e => h (BitVec.eq_of_toNat_eq e)
  omega

theorem rd_ne_of_lt {rd : BitVec 4} (h : rd.toNat < 15) : rd ≠ 15 := fun e => by subst e; exact absurd h (by decide)

/-! ### `State.deliver` and `State.deliverDrawn` -/

/-- The end of a read, as one record: the register and the program counter change. -/
theorem State.deliver_eq (s : State) {rd : BitVec 4} (h : rd.toNat < 15) (v : Word) :
    s.deliver rd v = { s with regs := s.regs.set rd.toNat v, pc := s.pc + 4 } := by
  rw [State.deliver, State.writeX_eq s h]; rfl

/-- A read of a register with a reserved field, as one record: the ghost and the counter of draws change too. -/
theorem State.deliverDrawn_eq (s : State) (r : ReservedReg) (held : Word) {rd : BitVec 4} (h : rd.toNat < 15) :
    s.deliverDrawn r held rd =
      { s with
        regs := s.regs.set rd.toNat (s.drawnWord r held)
        pc := s.pc + 4
        draws := s.draws + 1
        cp15 := { s.cp15 with lastRead := s.cp15.lastRead.set r (s.drawnWord r held) } } := by
  rw [State.deliverDrawn, State.deliver_eq _ h]

/-! ### `State.fillTlb`: only a TLB changes. -/

theorem State.fillTlb_cases (s : State) (side : Side) (e : TlbEntry) :
    s.fillTlb side e = s ∨
      s.fillTlb side e = { s with cp15 := s.cp15.withTlb side ((s.cp15.tlb side).add e) } := by
  unfold State.fillTlb
  split
  · exact .inr rfl
  · exact .inl rfl

/-! ### The ghosts (10_state.md R75) -/

/-- After a read, the ghost of the register is the word read; register 12 keeps none. -/
theorem LastRead.get_set_self (l : LastRead) {r : ReservedReg} (h : r ≠ .vbase) (v : Word) :
    (l.set r v).get r = some v := by
  cases r <;> first | rfl | exact absurd rfl h

/-- The ghosts of the other registers stay. -/
theorem LastRead.get_set_of_ne (l : LastRead) {r q : ReservedReg} (h : q ≠ r) (v : Word) :
    (l.set r v).get q = l.get q := by
  cases r <;> cases q <;> first | rfl | exact absurd rfl h

end Sys2Proof.Machine
end

