-- ==== Sys2Proof/Laws/Exec.lean ====
section
/-!
SUPPORT. What the checks before an access and the access itself can do, said once.
-/
namespace Sys2Proof.Machine

/-- The checks of 30_encoding.md R117 pass. -/
structure Passes (i : Instr) (s : State) : Prop where
  valid : s.cfg.valid = true
  privileged : s.privileged = true
  rd : i.rd.toNat < 15
  admits : admits s.cfg i.access = true

/-- Where the checks pass, the access is its meaning. -/
theorem admitted_of_passes {i : Instr} {s : State} (h : Passes i s) (meaning : Outcome) :
    admitted i s meaning = meaning := by
  have hr : ¬ i.rd = 15#4 := rd_ne_of_lt h.rd
  simp [admitted, h.valid, h.privileged, hr, h.admits]

/-- An access that answers a next state passed the checks, and the next state is its meaning's. -/
theorem admitted_next {i : Instr} {s t : State} {meaning : Outcome} (h : admitted i s meaning = .next t) :
    Passes i s ∧ meaning = .next t := by
  unfold admitted at h
  split at h
  · cases h
  · split at h
    · cases h
    · split at h
      · cases h
      · split at h
        · cases h
        · rename_i h1 h2 h3 h4
          exact ⟨⟨by simpa using h1, by simpa using h2, rd_lt_of_ne h3, by simpa using h4⟩, h⟩

/-- Without privilege every access of an admitted configuration raises the undefined instruction exception. -/
theorem admitted_unprivileged {i : Instr} {s : State} (hv : s.cfg.valid = true) (hp : s.privileged = false)
    (meaning : Outcome) : admitted i s meaning = .fault (.undefinedInstruction (encode i)) := by
  simp [admitted, raiseUndefinedInstruction, hv, hp]

/-- The reads of a register with a reserved field: which register, and the bits it holds. -/
inductive DrawnRead (s : State) : ReservedReg → Word → Prop where
  | control : DrawnRead s .c1 s.controlWord
  | ttb : DrawnRead s .ttb s.cp15.ttb
  | dfsr : DrawnRead s .dfsr s.cp15.dfsr.word
  | ifsr : DrawnRead s .ifsr s.cp15.ifsr.word
  | pid : DrawnRead s .pid (pidWord s.cp15.pid)

/-- The states CP15 can be left in by a write of the word `w`. -/
inductive WrittenTo (s : State) (w : Word) : Cp15 → Prop where
  | control (h : s.reservedFieldOk .c1 w = true) : WrittenTo s w (s.cp15.writeControl s.cfg w)
  | ttb (h : s.reservedFieldOk .ttb w = true) : WrittenTo s w (s.cp15.writeTtb s.cfg w)
  | dacr (h : hasReservedDomain w = false) : WrittenTo s w (s.cp15.writeDacr w)
  | vbase (h : s.reservedFieldOk .vbase w = true) : WrittenTo s w (s.cp15.writeVbase w)
  | pid (h : s.reservedFieldOk .pid w = true) : WrittenTo s w (s.cp15.writePid w)
  | itlbAll (h : w = 0) : WrittenTo s w (s.cp15.replaceItlb [])
  | itlbEntry : WrittenTo s w (s.cp15.replaceItlb (Tlb.without s.cp15.itlb w))
  | dtlbAll (h : w = 0) : WrittenTo s w (s.cp15.replaceDtlb [])
  | dtlbEntry : WrittenTo s w (s.cp15.replaceDtlb (Tlb.without s.cp15.dtlb w))
  | tlbAll (h : w = 0) : WrittenTo s w ((s.cp15.replaceItlb []).replaceDtlb [])
  | tlbEntry : WrittenTo s w
      ((s.cp15.replaceItlb (Tlb.without s.cp15.itlb w)).replaceDtlb (Tlb.without s.cp15.dtlb w))

/-- Everything an access that answers a next state can have done: delivered a word, delivered a word with drawn bits, or
written CP15. -/
inductive AccessDone (i : Instr) (s : State) : State → Prop where
  | read (v : Word) : AccessDone i s (s.deliver i.rd v)
  | drawn (r : ReservedReg) (held : Word) (h : DrawnRead s r held) : AccessDone i s (s.deliverDrawn r held i.rd)
  | write (c : Cp15) (h : WrittenTo s (s.readX i.rd) c) : AccessDone i s (s.commit c)

theorem wholeTlb_next {s t : State} {rd : BitVec 4} {c : Cp15} (h : wholeTlb s rd c = .next t) :
    s.readX rd = 0 ∧ t = s.commit c := by
  unfold wholeTlb at h
  split at h
  · rename_i h0; cases h; exact ⟨h0, rfl⟩
  · cases h

/-- A choice between a next state and a refusal answers a next state only on its condition. -/
theorem next_of_ite {p : Prop} [Decidable p] {t u : State} {r : Refusal}
    (h : (if p then .next u else .refused r : Outcome) = .next t) : p ∧ t = u := by
  split at h
  · rename_i hp; cases h; exact ⟨hp, rfl⟩
  · cases h

/-- The inversion lemma of `exec`. -/
theorem exec_next {i : Instr} {s t : State} (h : exec i s = .next t) : Passes i s ∧ AccessDone i s t := by
  cases i with
  | mrcMainId cond rd => obtain ⟨hp, hm⟩ := admitted_next h; cases hm; exact ⟨hp, .read _⟩
  | mrcCacheType cond rd => obtain ⟨hp, hm⟩ := admitted_next h; cases hm; exact ⟨hp, .read _⟩
  | mrcControl cond rd => obtain ⟨hp, hm⟩ := admitted_next h; cases hm; exact ⟨hp, .drawn _ _ .control⟩
  | mcrControl cond rd =>
    obtain ⟨hp, hm⟩ := admitted_next h
    obtain ⟨hw, rfl⟩ := next_of_ite hm
    exact ⟨hp, .write _ (.control hw)⟩
  | mrcTtb cond rd => obtain ⟨hp, hm⟩ := admitted_next h; cases hm; exact ⟨hp, .drawn _ _ .ttb⟩
  | mcrTtb cond rd =>
    obtain ⟨hp, hm⟩ := admitted_next h
    obtain ⟨hw, rfl⟩ := next_of_ite hm
    exact ⟨hp, .write _ (.ttb hw)⟩
  | mrcDacr cond rd => obtain ⟨hp, hm⟩ := admitted_next h; cases hm; exact ⟨hp, .read _⟩
  | mcrDacr cond rd =>
    obtain ⟨hp, hm⟩ := admitted_next h
    split at hm
    · cases hm
    · rename_i hw; cases hm; exact ⟨hp, .write _ (.dacr (Bool.eq_false_iff.mpr hw))⟩
  | mrcDfsr cond rd => obtain ⟨hp, hm⟩ := admitted_next h; cases hm; exact ⟨hp, .drawn _ _ .dfsr⟩
  | mrcIfsr cond rd => obtain ⟨hp, hm⟩ := admitted_next h; cases hm; exact ⟨hp, .drawn _ _ .ifsr⟩
  | mrcDfar cond rd => obtain ⟨hp, hm⟩ := admitted_next h; cases hm; exact ⟨hp, .read _⟩
  | mrcIfar cond rd => obtain ⟨hp, hm⟩ := admitted_next h; cases hm; exact ⟨hp, .read _⟩
  | mcrItlbAll cond rd =>
    obtain ⟨hp, hm⟩ := admitted_next h
    obtain ⟨hw, rfl⟩ := wholeTlb_next hm
    exact ⟨hp, .write _ (.itlbAll hw)⟩
  | mcrItlbEntry cond rd => obtain ⟨hp, hm⟩ := admitted_next h; cases hm; exact ⟨hp, .write _ .itlbEntry⟩
  | mcrDtlbAll cond rd =>
    obtain ⟨hp, hm⟩ := admitted_next h
    obtain ⟨hw, rfl⟩ := wholeTlb_next hm
    exact ⟨hp, .write _ (.dtlbAll hw)⟩
  | mcrDtlbEntry cond rd => obtain ⟨hp, hm⟩ := admitted_next h; cases hm; exact ⟨hp, .write _ .dtlbEntry⟩
  | mcrTlbAll cond rd =>
    obtain ⟨hp, hm⟩ := admitted_next h
    obtain ⟨hw, rfl⟩ := wholeTlb_next hm
    exact ⟨hp, .write _ (.tlbAll hw)⟩
  | mcrTlbEntry cond rd => obtain ⟨hp, hm⟩ := admitted_next h; cases hm; exact ⟨hp, .write _ .tlbEntry⟩
  | mcrVbase cond rd =>
    obtain ⟨hp, hm⟩ := admitted_next h
    obtain ⟨hw, rfl⟩ := next_of_ite hm
    exact ⟨hp, .write _ (.vbase hw)⟩
  | mcrPid cond rd =>
    obtain ⟨hp, hm⟩ := admitted_next h
    obtain ⟨hw, rfl⟩ := next_of_ite hm
    exact ⟨hp, .write _ (.pid hw)⟩
  | mrcPid cond rd => obtain ⟨hp, hm⟩ := admitted_next h; cases hm; exact ⟨hp, .drawn _ _ .pid⟩
  | otherAccess cond isRead op1 crn rd op2 crm => obtain ⟨-, hm⟩ := admitted_next h; cases hm

end Sys2Proof.Machine
end

