-- ==== Sys2Proof/Laws/Memory.lean ====
section
/-!
SUPPORT. Instruction memory: read after write, and every operation keeps the canonical form.
-/
namespace Sys2Proof.Machine

/-- Every cell of the list after an insertion is the new one or an old one. -/
theorem Memory.mem_insert {a : Nat} {b : Byte} {m : Memory} {c : Host.Cell} (h : c ∈ Memory.insert a b m) :
    c = (a, b) ∨ c ∈ m := by
  induction m with
  | nil => simpa [Memory.insert] using h
  | cons d rest ih =>
    unfold Memory.insert at h
    split at h
    · simpa using h
    · split at h
      · rcases List.mem_cons.mp h with h | h
        · exact .inl h
        · exact .inr (List.mem_cons_of_mem _ h)
      · rcases List.mem_cons.mp h with h | h
        · exact .inr (h ▸ List.mem_cons_self)
        · rcases ih h with h | h
          · exact .inl h
          · exact .inr (List.mem_cons_of_mem _ h)

/-- An insertion inside the address space keeps the canonical form. -/
theorem Memory.insert_wf {a : Nat} (ha : a < 2 ^ 32) (b : Byte) {m : Memory} (h : m.wf) :
    Memory.wf (Memory.insert a b m) := by
  refine ⟨?_, fun c hc => ?_⟩
  · have hp := h.1
    clear h
    induction m with
    | nil => simp [Memory.insert]
    | cons d rest ih =>
      obtain ⟨hd, hrest⟩ := List.pairwise_cons.mp hp
      unfold Memory.insert
      split
      · rename_i hlt
        refine List.pairwise_cons.mpr ⟨fun c hc => ?_, hp⟩
        rcases List.mem_cons.mp hc with rfl | hc
        · exact hlt
        · exact Nat.lt_trans hlt (hd c hc)
      · split
        · rename_i heq
          exact List.pairwise_cons.mpr ⟨fun c hc => heq ▸ hd c hc, hrest⟩
        · rename_i hlt hne
          refine List.pairwise_cons.mpr ⟨fun c hc => ?_, ih hrest⟩
          rcases Memory.mem_insert hc with rfl | hc
          · exact Nat.lt_of_le_of_ne (Nat.le_of_not_lt hlt) (Ne.symm hne)
          · exact hd c hc
  · rcases Memory.mem_insert hc with rfl | hc
    · exact ha
    · exact h.2 c hc

theorem Memory.write_wf {m : Memory} (h : m.wf) (a : Word) (b : Byte) : (m.write a b).wf :=
  Memory.insert_wf a.isLt b h

theorem Memory.writeBytes_wf {m : Memory} (h : m.wf) (a : Word) (bytes : List Byte) : (m.writeBytes a bytes).wf := by
  induction bytes generalizing m a with
  | nil => exact h
  | cons b rest ih => exact ih (Memory.write_wf h a b) (a + 1)

/-- A byte reads as it was written. -/
@[simp] theorem Memory.read_write (m : Memory) (a : Word) (b : Byte) : (m.write a b).read a = some b := by
  unfold Memory.write
  induction m with
  | nil => simp [Memory.insert, Memory.read]
  | cons d rest ih =>
    unfold Memory.insert
    split
    · simp [Memory.read]
    · split
      · simp [Memory.read]
      · rename_i hne
        have : (d.1 == a.toNat) = false := by simpa using Ne.symm hne
        simpa [Memory.read, List.find?_cons, this] using ih

/-- A write leaves every other address alone. -/
theorem Memory.read_write_of_ne (m : Memory) {a c : Word} (h : c ≠ a) (b : Byte) : (m.write a b).read c = m.read c := by
  have hne : (a.toNat == c.toNat) = false := by
    simpa using fun e => h (BitVec.eq_of_toNat_eq e.symm)
  unfold Memory.write
  induction m with
  | nil => simp [Memory.insert, Memory.read, hne]
  | cons d rest ih =>
    unfold Memory.insert
    split
    · simp [Memory.read, List.find?_cons, hne]
    · split
      · rename_i heq
        have : (d.1 == c.toNat) = false := heq ▸ hne
        simp [Memory.read, hne, this]
      · simp only [Memory.read, List.find?_cons]
        split
        · rfl
        · simpa [Memory.read] using ih

/-- The memory of the reset state is canonical: it lists nothing. -/
theorem State.reset_mem_wf : State.reset.mem.wf := by
  constructor <;> simp [State.reset, State.start]

/-- The word placed at an aligned program counter is fetched from there. -/
theorem fetchBytes_writeBytes (m : Memory) (order : ByteOrder) (w : Word) {pc : Word} (h : pc.extractLsb' 0 2 = 0) :
    fetchBytes (m.writeBytes pc (splitBytes order w)) pc = .ok (splitBytes order w) := by
  have e1 : pc + 1#32 + 1#32 = pc + 2#32 := by bv_omega
  have e2 : pc + 2#32 + 1#32 = pc + 3#32 := by bv_omega
  have n01 : pc ≠ pc + 1#32 := by bv_omega
  have n02 : pc ≠ pc + 2#32 := by bv_omega
  have n03 : pc ≠ pc + 3#32 := by bv_omega
  have n12 : pc + 1#32 ≠ pc + 2#32 := by bv_omega
  have n13 : pc + 1#32 ≠ pc + 3#32 := by bv_omega
  have n23 : pc + 2#32 ≠ pc + 3#32 := by bv_omega
  cases order <;>
    simp [fetchBytes, h, splitBytes, Memory.writeBytes, e1, e2, Memory.read_write_of_ne, n01, n02, n03, n12, n13, n23]

end Sys2Proof.Machine
end

