-- ==== Sys2Proof/Laws/Ops.lean ====
section
/-!
SUPPORT. One lemma for each shared operation that says once what it does: the reserved-field check, the drawn words, the
checks before an access, the register writes, the choice of the recorded fault.
-/
namespace Sys2Proof.Machine

/-! ### Fields and masks -/

/-- Two words agree under a mask exactly when they agree in every bit the mask has. -/
theorem and_eq_and_iff (w v mask : Word) :
    w &&& mask = v &&& mask ↔ ∀ n, mask.getLsbD n = true → w.getLsbD n = v.getLsbD n := by
  constructor
  · intro h n hn
    simpa [hn] using congrArg (fun x => x.getLsbD n) h
  · intro h
    apply BitVec.eq_of_getLsbD_eq
    intro n _
    simp only [BitVec.getLsbD_and]
    cases hm : mask.getLsbD n with
    | false => simp
    | true => rw [h n hm]

/-- Two words agree in a field exactly when they agree in every bit of it. -/
theorem extract_eq_extract_iff (w v : Word) (lo len : Nat) :
    w.extractLsb' lo len = v.extractLsb' lo len ↔ ∀ n, lo ≤ n → n < lo + len → w.getLsbD n = v.getLsbD n := by
  constructor
  · intro h n hlo hn
    have hb := congrArg (fun x => x.getLsbD (n - lo)) h
    have e : lo + (n - lo) = n := by omega
    have l : n - lo < len := by omega
    simpa only [BitVec.getLsbD_extractLsb', e, l, decide_true, Bool.true_and] using hb
  · intro h
    apply BitVec.eq_of_getLsbD_eq
    intro n hn
    simp only [BitVec.getLsbD_extractLsb', hn, decide_true, Bool.true_and]
    exact h _ (by omega) (by omega)

/-- A field and a mask of the same bits select the same agreement. -/
theorem extract_iff_and (mask : Word) (lo len : Nat)
    (hm : ∀ n < 32, mask.getLsbD n = decide (lo ≤ n ∧ n < lo + len)) (w v : Word) :
    w.extractLsb' lo len = v.extractLsb' lo len ↔ w &&& mask = v &&& mask := by
  rw [and_eq_and_iff, extract_eq_extract_iff]
  constructor
  · intro h n hn
    by_cases l : n < 32
    · rw [hm n l] at hn
      obtain ⟨h1, h2⟩ := of_decide_eq_true hn
      exact h n h1 h2
    · rw [BitVec.getLsbD_of_ge _ _ (Nat.le_of_not_lt l)] at hn
      cases hn
  · intro h n h1 h2
    by_cases l : n < 32
    · exact h n (by rw [hm n l]; exact decide_eq_true ⟨h1, h2⟩)
    · rw [BitVec.getLsbD_of_ge _ _ (Nat.le_of_not_lt l), BitVec.getLsbD_of_ge _ _ (Nat.le_of_not_lt l)]

/-- Bits [31:16], the reserved field of register 1. -/
theorem reservedMask_c1_field (cfg : Config) (w v : Word) :
    w.extractLsb' 16 16 = v.extractLsb' 16 16 ↔ w &&& reservedMask cfg .c1 = v &&& reservedMask cfg .c1 :=
  extract_iff_and (reservedMask cfg .c1) 16 16
    (by show ∀ n < 32, BitVec.getLsbD 0xFFFF0000#32 n = _; decide) w v

/-- Bits [31:9], the reserved field of a fault status register. -/
theorem reservedMask_dfsr_bit (cfg : Config) {n : Nat} (h : n < 9) : (reservedMask cfg .dfsr).getLsbD n = false := by
  show BitVec.getLsbD 0xFFFFFE00#32 n = false
  interval_cases n <;> rfl

theorem reservedMask_ifsr_bit (cfg : Config) {n : Nat} (h : n < 9) : (reservedMask cfg .ifsr).getLsbD n = false :=
  reservedMask_dfsr_bit cfg h

/-- Bits [4:0], the reserved field of register 12. -/
theorem reservedMask_vbase_field (cfg : Config) (w v : Word) :
    w.extractLsb' 0 5 = v.extractLsb' 0 5 ↔ w &&& reservedMask cfg .vbase = v &&& reservedMask cfg .vbase :=
  extract_iff_and (reservedMask cfg .vbase) 0 5
    (by show ∀ n < 32, BitVec.getLsbD 0x0000001F#32 n = _; decide) w v

/-- Bits [24:0], the reserved field of register 13. -/
theorem reservedMask_pid_field (cfg : Config) (w v : Word) :
    w.extractLsb' 0 25 = v.extractLsb' 0 25 ↔ w &&& reservedMask cfg .pid = v &&& reservedMask cfg .pid :=
  extract_iff_and (reservedMask cfg .pid) 0 25
    (by show ∀ n < 32, BitVec.getLsbD 0x01FFFFFF#32 n = _; decide) w v

/-- The low bits of register 2. -/
theorem getLsbD_ttbLowMask (cfg : Config) {n : Nat} (hn : n < 32) :
    cfg.ttbLowMask.getLsbD n = decide (n < cfg.ttbLowBits) := by
  simp only [Config.ttbLowMask, BitVec.getLsbD_ofNat, hn, Nat.testBit_two_pow_sub_one, decide_true, Bool.true_and]

theorem reservedMask_ttb_field (cfg : Config) (w v : Word) :
    (∀ n < cfg.ttbLowBits, w.getLsbD n = v.getLsbD n) ↔ w &&& reservedMask cfg .ttb = v &&& reservedMask cfg .ttb := by
  rw [and_eq_and_iff]
  constructor
  · intro h n hn
    by_cases l : n < 32
    · exact h n (by simpa [reservedMask, getLsbD_ttbLowMask cfg l] using hn)
    · rw [BitVec.getLsbD_of_ge _ _ (Nat.le_of_not_lt l), BitVec.getLsbD_of_ge _ _ (Nat.le_of_not_lt l)]
  · intro h n hn
    by_cases l : n < 32
    · exact h n (by simpa [reservedMask, getLsbD_ttbLowMask cfg l] using hn)
    · rw [BitVec.getLsbD_of_ge _ _ (Nat.le_of_not_lt l), BitVec.getLsbD_of_ge _ _ (Nat.le_of_not_lt l)]

/-- A control bit stands below the reserved field of register 1. -/
theorem reservedMask_c1_bit (cfg : Config) (bit : ControlBit) :
    (reservedMask cfg .c1).getLsbD bit.index = false := by
  show BitVec.getLsbD 0xFFFF0000#32 _ = false
  cases bit <;> rfl

theorem controlBit_index_lt (bit : ControlBit) : bit.index < 16 := by cases bit <;> decide

/-! ### The reserved-field policy (10_state.md R75) -/

/-- What the check of a reserved field admits: zero, or the bits of the word last read. -/
theorem State.reservedFieldOk_iff (s : State) (r : ReservedReg) (w : Word) :
    s.reservedFieldOk r w = true ↔
      w &&& reservedMask s.cfg r = 0 &&& reservedMask s.cfg r ∨
        ∃ v, s.cp15.lastRead.get r = some v ∧ w &&& reservedMask s.cfg r = v &&& reservedMask s.cfg r := by
  simp only [State.reservedFieldOk]
  cases s.cp15.lastRead.get r <;> simp

/-- Outside the reserved field a drawn word is the held one. -/
theorem State.getLsbD_drawnWord (s : State) (r : ReservedReg) (held : Word) {n : Nat}
    (h : (reservedMask s.cfg r).getLsbD n = false) : (s.drawnWord r held).getLsbD n = held.getLsbD n := by
  simp only [State.drawnWord, getLsbD_mergeBits, h]
  rfl

/-! ### The words of the registers -/

theorem State.getLsbD_controlWord (s : State) (bit : ControlBit) :
    s.controlWord.getLsbD bit.index = (s.cfg.controlValue s.cp15.c1).getLsbD bit.index := by
  have := controlBit_index_lt bit
  have : bit.index < 32 := by omega
  simp [State.controlWord, this]

/-- Register 1 after a write, bit by bit. -/
theorem Cp15.getLsbD_writeControl (c : Cp15) (cfg : Config) (w : Word) (bit : ControlBit) :
    (c.writeControl cfg w).c1.getLsbD bit.index =
      if cfg.kind bit = .rw then w.getLsbD bit.index else c.c1.getLsbD bit.index := by
  simp only [Cp15.writeControl, getLsbD_mergeBits, Config.getLsbD_rwMask, BitVec.getLsbD_setWidth, controlBit_index_lt bit,
    decide_true, Bool.true_and, beq_iff_eq]

/-- Register 2 after a write, bit by bit. -/
theorem Cp15.getLsbD_writeTtb (c : Cp15) (cfg : Config) (w : Word) (n : Nat) :
    (c.writeTtb cfg w).ttb.getLsbD n = if cfg.ttbLowBits ≤ n then w.getLsbD n else c.ttb.getLsbD n := by
  simp only [Cp15.writeTtb, getLsbD_mergeBits]
  by_cases hn : n < 32
  · simp only [BitVec.getLsbD_not, getLsbD_ttbLowMask _ hn, hn]
    by_cases hk : n < cfg.ttbLowBits
    · simp [hk, Nat.not_le.mpr hk]
    · simp [hk, Nat.le_of_not_lt hk]
  · simp [BitVec.getLsbD_of_ge _ _ (Nat.le_of_not_lt hn)]

/-- Some field of a domain word is reserved exactly when one of the sixteen is. -/
theorem hasReservedDomain_iff (w : Word) :
    hasReservedDomain w = true ↔ ∃ n < 16, w.extractLsb' (2 * n) 2 = 0b10#2 := by
  simp only [hasReservedDomain, domainField, List.any_eq_true, List.mem_range, beq_iff_eq]
  constructor
  · rintro ⟨n, hn, h⟩
    refine ⟨n, hn, ?_⟩
    rwa [BitVec.toNat_ofNat, Nat.mod_eq_of_lt (by omega)] at h
  · rintro ⟨n, hn, h⟩
    refine ⟨n, hn, ?_⟩
    rwa [BitVec.toNat_ofNat, Nat.mod_eq_of_lt (by omega)]

/-! ### The checks before an access (30_encoding.md R117) -/

theorem admits_of {cfg : Config} {a : Access} (hl : a.isListed = true) (hp : registerPresent cfg a.crn = true) :
    admits cfg a = true := by
  rw [admits, hl, hp]; rfl

theorem beq_mmu {cfg : Config} (h : cfg.memsys = .mmu) : (cfg.memsys == .mmu) = true := by rw [h]; rfl

/-- A tuple that is not admitted, with privilege and `Rd` not R15, is refused for the reason of `refusalOf`. -/
theorem admitted_refused {i : Instr} {s : State} (hv : s.cfg.valid = true) (hp : s.privileged = true)
    (hr : i.rd ≠ 15) (ha : admits s.cfg i.access = false) (meaning : Outcome) :
    admitted i s meaning = .refused (refusalOf s.cfg i.access) := by
  simp [admitted, hv, hp, ha, show ¬ i.rd = 15#4 from hr]

/-- `Rd` = R15 is refused, with privilege. -/
theorem admitted_rdIsR15 {i : Instr} {s : State} (hv : s.cfg.valid = true) (hp : s.privileged = true)
    (hr : i.rd = 15) (meaning : Outcome) : admitted i s meaning = .refused .rdIsR15 := by
  simp [admitted, hv, hp, show i.rd = 15#4 from hr]

/-- An excluded configuration is refused before everything. -/
theorem admitted_configuration {i : Instr} {s : State} (hv : s.cfg.valid = false) (meaning : Outcome) :
    admitted i s meaning = .refused .configuration := by
  simp [admitted, hv]

/-- Every arm of `exec` makes the checks first. -/
theorem exec_admitted (i : Instr) (s : State) : ∃ meaning, exec i s = admitted i s meaning := by
  cases i <;> exact ⟨_, rfl⟩

/-! ### The memory system agent -/

/-- The cause recorded is one of those whose conditions are met, and none of them stands higher in the table (R203). -/
theorem FaultCause.highest_spec (first : FaultCause) (others : List FaultCause) :
    FaultCause.highest first others ∈ first :: others ∧
      ∀ j ∈ first :: others, (FaultCause.highest first others).number ≤ j.number := by
  induction others generalizing first with
  | nil => simp [FaultCause.highest]
  | cons a rest ih =>
    have e : FaultCause.highest first (a :: rest) =
        FaultCause.highest (if a.number < first.number then a else first) rest := rfl
    rw [e]
    obtain ⟨hm, hl⟩ := ih (if a.number < first.number then a else first)
    have h0 : _ ≤ (if a.number < first.number then a else first).number := hl _ (List.mem_cons_self ..)
    have h1 : (if a.number < first.number then a else first).number ≤ a.number := by split <;> omega
    have h2 : (if a.number < first.number then a else first).number ≤ first.number := by split <;> omega
    refine ⟨?_, fun j hj => ?_⟩
    · rcases List.mem_cons.mp hm with h | h
      · rw [h]; split <;> simp
      · exact List.mem_cons_of_mem _ (List.mem_cons_of_mem _ h)
    · rcases List.mem_cons.mp hj with rfl | hj
      · omega
      · rcases List.mem_cons.mp hj with rfl | hj
        · omega
        · exact hl j (List.mem_cons_of_mem _ hj)

/-- One cause that can arise is recorded, or refused, as it stands. -/
theorem faultStep_singleton {s : State} {k : FaultCause} {domain : BitVec 4} {address : Word}
    (hm : s.cfg.memsys = .mmu) (ha : s.faultMayArise k domain address = true) (side : Side) :
    faultStep s side [k] domain address = recordStep s side k domain address := by
  simp [faultStep, hm, ha, FaultCause.highest]

/-- Where none of the causes can arise nothing happens. -/
theorem faultStep_of_none {s : State} {causes : List FaultCause} {domain : BitVec 4} {address : Word}
    (hm : s.cfg.memsys = .mmu) (ha : ∀ k ∈ causes, s.faultMayArise k domain address = false) (side : Side) :
    faultStep s side causes domain address = .next s := by
  have h : causes.filter (fun k => s.faultMayArise k domain address) = [] := by simpa using ha
  simp [faultStep, hm, h]

/-- A code without an `x` is recorded as it stands. -/
theorem statusOf_plain (code : BitVec 4) (drawn : Word) : statusOf (.plain code) drawn = code := by
  have h (x y : BitVec 4) : mergeBits 0 y x = x := by revert x y; decide
  exact h _ _

/-- The number names the cause. -/
theorem FaultCause.number_injective {j k : FaultCause} (h : j.number = k.number) : j = k := by
  cases j <;> cases k <;> first | rfl | exact absurd h (by decide)

/-- A superseded value of a control bit, or the new one. -/
theorem State.bitMayGovern_iff (s : State) (bit : ControlBit) (v : Bool) :
    s.bitMayGovern bit v = true ↔
      ∃ c1 ∈ s.cp15.c1 :: s.cp15.window.c1, (s.cfg.controlValue c1).getLsbD bit.index = v := by
  simp [State.bitMayGovern]

end Sys2Proof.Machine
end

