-- ==== Sys2Proof/Laws/PerInstr.lean ====
section
/-!
SUPPORT. The family of statements made per instruction: what the fields of an instruction's word hold (30_encoding.md
R113, R117).
-/
namespace Sys2Proof.Laws.EncodedWord

/-- The word of the instruction is a register transfer to coprocessor 15, and its fields are the instruction's own. -/
def Statement (i : Instr) : Prop :=
  isRegisterTransfer (encode i) = true ∧ (encode i).extractLsb' 8 4 = 0b1111#4 ∧ wordCond (encode i) = i.cond ∧
    wordAccess (encode i) = i.access ∧ wordRd (encode i) = i.rd

theorem of_assemble (i : Instr) : Statement i :=
  ⟨isRegisterTransfer_assemble _ _ _, coprocessor_assemble _ _ _, wordCond_assemble _ _ _, wordAccess_assemble _ _ _,
    wordRd_assemble _ _ _⟩

theorem mrcMainId (cond rd : BitVec 4) : Statement (.mrcMainId cond rd) := of_assemble _
theorem mrcCacheType (cond rd : BitVec 4) : Statement (.mrcCacheType cond rd) := of_assemble _
theorem mrcControl (cond rd : BitVec 4) : Statement (.mrcControl cond rd) := of_assemble _
theorem mcrControl (cond rd : BitVec 4) : Statement (.mcrControl cond rd) := of_assemble _
theorem mrcTtb (cond rd : BitVec 4) : Statement (.mrcTtb cond rd) := of_assemble _
theorem mcrTtb (cond rd : BitVec 4) : Statement (.mcrTtb cond rd) := of_assemble _
theorem mrcDacr (cond rd : BitVec 4) : Statement (.mrcDacr cond rd) := of_assemble _
theorem mcrDacr (cond rd : BitVec 4) : Statement (.mcrDacr cond rd) := of_assemble _
theorem mrcDfsr (cond rd : BitVec 4) : Statement (.mrcDfsr cond rd) := of_assemble _
theorem mrcIfsr (cond rd : BitVec 4) : Statement (.mrcIfsr cond rd) := of_assemble _
theorem mrcDfar (cond rd : BitVec 4) : Statement (.mrcDfar cond rd) := of_assemble _
theorem mrcIfar (cond rd : BitVec 4) : Statement (.mrcIfar cond rd) := of_assemble _
theorem mcrItlbAll (cond rd : BitVec 4) : Statement (.mcrItlbAll cond rd) := of_assemble _
theorem mcrItlbEntry (cond rd : BitVec 4) : Statement (.mcrItlbEntry cond rd) := of_assemble _
theorem mcrDtlbAll (cond rd : BitVec 4) : Statement (.mcrDtlbAll cond rd) := of_assemble _
theorem mcrDtlbEntry (cond rd : BitVec 4) : Statement (.mcrDtlbEntry cond rd) := of_assemble _
theorem mcrTlbAll (cond rd : BitVec 4) : Statement (.mcrTlbAll cond rd) := of_assemble _
theorem mcrTlbEntry (cond rd : BitVec 4) : Statement (.mcrTlbEntry cond rd) := of_assemble _
theorem mcrVbase (cond rd : BitVec 4) : Statement (.mcrVbase cond rd) := of_assemble _
theorem mcrPid (cond rd : BitVec 4) : Statement (.mcrPid cond rd) := of_assemble _
theorem mrcPid (cond rd : BitVec 4) : Statement (.mrcPid cond rd) := of_assemble _
theorem otherAccess (cond : BitVec 4) (isRead : Bool) (op1 : BitVec 3) (crn rd : BitVec 4) (op2 : BitVec 3)
    (crm : BitVec 4) : Statement (.otherAccess cond isRead op1 crn rd op2 crm) := of_assemble _

end Sys2Proof.Laws.EncodedWord
end

