-- ==== Sys2Proof/Laws/Step.lean ====
section
/-!
SUPPORT. What a step can do, said once: the memory system agent's steps, the core's step, the step of the machine.
-/
namespace Sys2Proof.Machine

/-- Everything a step of the memory system agent can do. -/
inductive MemDone (s : State) : State → Prop where
  | record (side : Side) (k : FaultCause) (code : FsrCode) (domain : BitVec 4) (address : Word)
      (hm : s.cfg.memsys = .mmu) (hc : s.cfg.fsrCodes.code k = some code) :
      MemDone s (s.recordFault side k code domain address)
  | unchanged : MemDone s s
  | fill (side : Side) (e : TlbEntry) (hm : s.bitMayGovern .m true = true) :
      MemDone s { s with cp15 := s.cp15.withTlb side ((s.cp15.tlb side).add e) }
  | drop (side : Side) (e : TlbEntry) : MemDone s (s.dropTlb side e)
  | settle (control : Control) (keep : Nat) :
      MemDone s { s with cp15 := { s.cp15 with window := s.cp15.window.settle control keep } }

/-- Everything a record that answers a next state has done. -/
theorem recordStep_next {s t : State} {side : Side} {k : FaultCause} {domain : BitVec 4} {address : Word}
    (h : recordStep s side k domain address = .next t) :
    ∃ code, s.cfg.fsrCodes.code k = some code ∧ (k.domainValid && s.domainMayGovern domain 0b10) = false ∧
      t = s.recordFault side k code domain address := by
  unfold recordStep at h
  split at h
  · cases h
  · rename_i hd
    split at h
    · rename_i code hc; cases h; exact ⟨code, hc, by simpa using hd, rfl⟩
    · cases h

/-- The inversion lemma of the memory system agent's step. -/
theorem memStep_next {event : MemEvent} {s t : State} (h : memStep event s = .next t) : MemDone s t := by
  cases event with
  | fault side cause others domain address =>
    simp only [memStep, faultStep] at h
    split at h
    · cases h
    · rename_i hm
      split at h
      · cases h; exact .unchanged
      · obtain ⟨code, hc, -, rfl⟩ := recordStep_next h
        exact .record _ _ _ _ _ (by simpa using hm) hc
  | fill side e =>
    simp only [memStep, State.fillTlb] at h
    split at h
    · rename_i hm; cases h; exact .fill _ _ hm.2
    · cases h; exact .unchanged
  | drop side e => cases h; exact .drop _ _
  | settle control keep => cases h; exact .settle _ _

/-- Everything a core step that answers a next state can have done: an access, or one whose condition failed. -/
theorem coreStep_next {s t : State} (h : coreStep s = .next t) :
    (∃ i, exec i s = .next t) ∨ t = s.advance := by
  unfold coreStep at h
  split at h
  · cases h
  · split at h
    · cases h
    · split at h
      · exact .inl ⟨_, h⟩
      · cases h; exact .inr rfl

/-- The inversion lemma of `step`: the configuration is admitted, and either the core moved, from the state with the
turn taken and its inputs in place, or the memory system agent did. -/
theorem step_next {s t : State} (h : step s = .next t) :
    s.cfg.valid = true ∧
      ((∃ p c rest, coreStep (({ s with turns := rest } : State).withInputs p c) = .next t) ∨
        ∃ event rest, memStep event { s with turns := rest } = .next t) := by
  unfold step at h
  split at h
  · cases h
  · rename_i hv
    refine ⟨by simpa using hv, ?_⟩
    split at h
    · rename_i hs
      exact .inl ⟨s.privileged, s.condPassed, [], by
        have e : (({ s with turns := [] } : State).withInputs s.privileged s.condPassed) = s := by
          rw [← hs]; rfl
        rw [e]; exact h⟩
    · exact .inl ⟨_, _, _, h⟩
    · exact .inr ⟨_, _, h⟩

end Sys2Proof.Machine
end

