-- ==== Sys2Proof/Tests/Slice0.lean ====
section
/-!
SUPPORT. Our own tests. Expected results are those of the spec: the words of 30_encoding.md R118, the vectors V0 to V7
of 95_test_vectors.md. Values the rules draw are masked.
-/
namespace Sys2Proof.Tests
open Sys2Proof Sys2Proof.Machine

/-! ### Helpers -/

/-- The spec's example configuration cfgB (95_test_vectors.md Part 2), with the constants of V1 rows 1 and 8. -/
def cfgB : Config :=
  { Config.exampleA with
    archVersion := 3
    ctrValue := 0x0008D08D
    memsys := .none
    hasCache := .none
    hasWb := false
    has26Bit := true
    endianSupport := .littleOnly
    hasHivecs := false
    replSelectable := false
    replFixedRead := true
    fKind := .rw
    l4Kind := .fixed0
    hasVbar := false
    hasPid := false }

/-- The reset state with R0 and CP15 as given. -/
def start (r0 : Word) (cp15 : Cp15 := State.reset.cp15) : State :=
  { State.reset with regs := State.reset.regs.set 0 r0, cp15 := cp15 }

/-- The reset state of another configuration, with R0 as given. -/
def startOf (cfg : Config) (r0 : Word) : State :=
  { State.start cfg Cp15.zero with regs := State.reset.regs.set 0 r0 }

/-- The reset state without privilege. -/
def user : State := { State.reset with privileged := false }

/-- A state with M = 1 and A = 1 (and P, D, L at their fixed 1), and the DACR given. -/
def running (dacr : Word := 0) : State := start 0 { State.reset.cp15 with c1 := 0x0073, dacr := dacr }

/-- A part of the next state; none where there is none. -/
def after {α : Type} (o : Outcome) (f : State → α) : Option α :=
  match o with
  | .next t => some (f t)
  | .fault _ => none
  | .refused _ => none

/-- The refusal of an outcome. -/
def refusal (o : Outcome) : Option Refusal :=
  match o with
  | .refused r => some r
  | .next _ | .fault _ => none

/-- The fault of an outcome. -/
def faultOf (o : Outcome) : Option Fault :=
  match o with
  | .fault f => some f
  | .next _ | .refused _ => none

/-- The outcome of the instruction a word decodes to. -/
def runWord (w : Word) (s : State) : Outcome :=
  match decodeWord w with
  | .ok i => exec i s
  | .error e => .refused (.undecodable e)

/-- The instruction a word decodes to. -/
def decoded (w : Word) : Option Instr := (decodeWord w).toOption

/-- The three entries of V5. -/
def e1 : TlbEntry := ⟨[(0x00008000, 0x00008FFF)]⟩
def e2 : TlbEntry := ⟨[(0x40000000, 0x400FFFFF)]⟩
def e3 : TlbEntry := ⟨[(0x40001000, 0x40001FFF)]⟩

/-- V5's start: `ITLB` = {e1, e2}, `DTLB` = {e2, e3}. -/
def tlbs : Cp15 := { State.reset.cp15 with itlb := [e1, e2], dtlb := [e2, e3] }

/-- Both TLBs after an access from V5's start. -/
def tlbsAfter (i : Instr) (r0 : Word) : Option (Tlb × Tlb) :=
  after (exec i (start r0 tlbs)) fun t => (t.cp15.itlb, t.cp15.dtlb)

/-! ### Well-formedness: a term each check refuses -/

theorem test_wf_condition : (Instr.mrcMainId 15 0).wf = false ∧ (Instr.mrcMainId 14 0).wf = true := by decide

theorem test_wf_tuple : (Instr.otherAccess 14 true 0 0 0 0 0).wf = false ∧
    (Instr.otherAccess 14 true 0 4 0 0 0).wf = true := by decide

/-! ### Decoding: words of R118's last column and of V0 -/

theorem test_decode_c0_c1 :
    decoded 0xEE100F10 = some (.mrcMainId 14 0) ∧ decoded 0xEE100F30 = some (.mrcCacheType 14 0) ∧
    decoded 0xEE101F30 = some (.mrcCacheType 14 1) ∧ decoded 0xEE110F10 = some (.mrcControl 14 0) ∧
    decoded 0xEE010F10 = some (.mcrControl 14 0) ∧ decoded 0xEE014F10 = some (.mcrControl 14 4) ∧
    decoded 0x1E105F10 = some (.mrcMainId 1 5) := by decide

theorem test_decode_c2_c3 :
    decoded 0xEE120F10 = some (.mrcTtb 14 0) ∧ decoded 0xEE020F10 = some (.mcrTtb 14 0) ∧
    decoded 0xEE132F10 = some (.mrcDacr 14 2) ∧ decoded 0xEE031F10 = some (.mcrDacr 14 1) := by decide

theorem test_decode_c5_c6 :
    decoded 0xEE150F10 = some (.mrcDfsr 14 0) ∧ decoded 0xEE150F30 = some (.mrcIfsr 14 0) ∧
    decoded 0xEE160F10 = some (.mrcDfar 14 0) ∧ decoded 0xEE163F50 = some (.mrcIfar 14 3) := by decide

theorem test_decode_c8 :
    decoded 0xEE080F15 = some (.mcrItlbAll 14 0) ∧ decoded 0xEE080F35 = some (.mcrItlbEntry 14 0) ∧
    decoded 0xEE080F16 = some (.mcrDtlbAll 14 0) ∧ decoded 0xEE081F36 = some (.mcrDtlbEntry 14 1) ∧
    decoded 0xEE082F17 = some (.mcrTlbAll 14 2) ∧ decoded 0xEE080F37 = some (.mcrTlbEntry 14 0) := by decide

theorem test_decode_c12_c13 :
    decoded 0xEE0C3F10 = some (.mcrVbase 14 3) ∧ decoded 0xEE0D0F10 = some (.mcrPid 14 0) ∧
    decoded 0xEE1D1F10 = some (.mrcPid 14 1) := by decide

theorem test_decode_other :
    decoded 0xEE070F9A = some (.otherAccess 14 false 0 7 0 4 10) ∧
    decoded 0xEE300F10 = some (.otherAccess 14 true 1 0 0 0 0) ∧
    decoded 0xEE100F50 = some (.otherAccess 14 true 0 0 0 2 0) ∧
    decoded 0xEE100F11 = some (.otherAccess 14 true 0 0 0 0 1) := by decide

/-- Another coprocessor, a data-processing coprocessor word (bit 4 clear), another instruction, condition 0b1111, three
bytes. -/
theorem test_decode_refused :
    decodeWord 0xEE100E10 = .error .otherCoprocessor ∧ decodeWord 0xEE100F00 = .error .notRegisterTransfer ∧
    decodeWord 0xE1A00000 = .error .notRegisterTransfer ∧ decodeWord 0xFE100F10 = .error .conditionNever ∧
    decode .little [0x10, 0x0F, 0x10] = .error .truncated := by decide

/-- The word of V0 in memory, lowest address first, in both byte orders; the byte after it is left. -/
theorem test_decode_bytes :
    decode .little [0x50, 0x3F, 0x16, 0xEE, 0xAA] = .ok (.mrcIfar 14 3, [0xAA]) ∧
    decode .big [0xEE, 0x16, 0x3F, 0x50] = .ok (.mrcIfar 14 3, []) := by decide

theorem test_encode : encode (.mrcIfar 14 3) = 0xEE163F50 ∧ encode (.mcrTlbAll 14 2) = 0xEE082F17 ∧
    encode (.mrcMainId 1 5) = 0x1E105F10 := by decide

theorem test_decodeTableWord :
    decodeTableWord 32 0x0E160F50 = some (.mrcIfar 0 0) ∧
    decodeTableWord 32 0x0E000F10 = some (.otherAccess 0 false 0 0 0 0 0) := by decide

/-! ### Register 0 (V1) -/

theorem test_mrc_main_id :
    after (exec (.mrcMainId 14 0) State.reset) (fun t => (t.readX 0, t.readX 1, t.pc)) = some (0x41129200, 0, 4) := by
  decide

theorem test_midr_fields :
    midrImplementor 0x69052D06 = 0x69 ∧ midrVariant 0x69052D06 = 0x0 ∧ midrArchitecture 0x69052D06 = 0x5 ∧
    midrPart 0x69052D06 = 0x2D0 ∧ midrRevision 0x69052D06 = 0x6 := by decide

/-- V1 row 5. -/
theorem test_midr_excluded : Config.valid { Config.exampleA with midrValue := 0x41007000 } = false := by decide

theorem test_mrc_cache_type :
    after (exec (.mrcCacheType 14 1) State.reset) (fun t => (t.readX 1, t.readX 0)) = some (0x0D172172, 0) := by
  decide

/-- V1 row 7: `Dsize` = 0x0D2 is 4 KB, 4-way, block 8; `ctype` = 0b0111. -/
theorem test_ctr_fields :
    ctrType 0x0F0D2112 = 0b0111 ∧ ctrSeparate 0x0F0D2112 = true ∧ ctrDataSize 0x0F0D2112 = 0x0D2 ∧
    ctrInstructionSize 0x0F0D2112 = 0x112 ∧ sizeFieldOk 0x0D2 = true ∧
    cacheSizeBytes (sizeCode 0x0D2) (sizeModifier 0x0D2) = 4096 ∧
    associativity (associativityCode 0x0D2) (sizeModifier 0x0D2) = some 4 ∧ blockSize (blockCode 0x0D2) = 8 ∧
    cacheType 0b0111 = some ⟨true, .byRegister 7, .formatB⟩ ∧ cacheType 0b0110 ≠ cacheType 0b0111 ∧
    cacheSizes 0x0F0D2112 = .separate 0x0D2 0x112 := by decide

/-- V1 rows 8 to 10: `M` = 1, one cache, the associativity "none", the unlisted type. -/
theorem test_ctr_modifier :
    cacheSizeBytes (sizeCode 0x08D) (sizeModifier 0x08D) = 3072 ∧
    associativity (associativityCode 0x08D) (sizeModifier 0x08D) = some 3 ∧ blockSize (blockCode 0x08D) = 4 ∧
    associativity (associativityCode 0x004) (sizeModifier 0x004) = none ∧
    cacheSizes 0x0008D08D = .unified 0x08D ∧ sizeFieldsAgree 0x0008D08D = true ∧ sizeFieldsAgree 0x0008D08E = false ∧ cacheType (ctrType 0x1D152152) = none := by
  decide

/-! ### Register 1 (V2) -/

/-- The bit kinds the spec works out for cfgA and cfgB. -/
theorem test_control_kinds :
    Config.exampleA.rwMask = 0xF38F ∧ Config.exampleA.fixedOnes = 0x0070 ∧ cfgB.rwMask = 0x0772 ∧
    cfgB.fixedOnes = 0x4000 ∧ cfgB.valid = true := by decide

/-- V2 rows 2 and 7. -/
theorem test_mcr_control :
    after (exec (.mcrControl 14 0) (start 0x0000FFFF)) (fun t => (t.cp15.c1 &&& t.cfg.rwMask, t.outputs.control)) =
      some (0xF38F, 0xF3FF) ∧
    refusal (exec (.mcrControl 14 0) (start 0xFFFF0001)) = some .sbzpFieldWritten := by decide

/-- V2 rows 10 and 12, under cfgB. -/
theorem test_mcr_control_cfgB :
    after (exec (.mcrControl 14 0) (startOf cfgB 0x0000FFFF)) (fun t => (t.cp15.c1 &&& t.cfg.rwMask, t.outputs.control)) =
      some (0x0772, 0x4772) ∧
    after (exec (.mcrControl 14 0) (startOf cfgB 0x00000001)) (fun t => t.outputs.control) = some 0x4000 := by decide

/-- A drawn word outside the reserved field. -/
theorem drawnWord_masked (s : State) (r : ReservedReg) (held : Word) :
    s.drawnWord r held &&& ~~~reservedMask s.cfg r = held &&& ~~~reservedMask s.cfg r := mergeBits_and_not _ _ _

/-- V2 row 1: [15:0] = 0x0070, and the ghost is the word read. -/
theorem test_mrc_control : ∃ t, exec (.mrcControl 14 0) State.reset = .next t ∧
    t.readX 0 &&& 0x0000FFFF = 0x0070 ∧ t.cp15.lastRead.c1 = some (t.readX 0) :=
  ⟨_, rfl, (drawnWord_masked State.reset .c1 _).trans (by decide), rfl⟩

/-! ### Registers 2 and 3 (V3) -/

/-- V3 row 2, from the base 0x30004000. -/
theorem test_mrc_ttb : ∃ t, exec (.mrcTtb 14 0) (start 0 { State.reset.cp15 with ttb := 0x30004000 }) = .next t ∧
    t.readX 0 &&& 0xFFFFC000 = 0x30004000 :=
  ⟨_, rfl, (drawnWord_masked State.reset .ttb 0x30004000).trans (by decide)⟩

/-- V3 rows 1, 5 and 3. -/
theorem test_mcr_ttb :
    after (exec (.mcrTtb 14 0) (start 0x30004000)) (fun t => t.cp15.ttb) = some 0x30004000 ∧
    after (exec (.mcrTtb 14 0) (start 0xFFFFC000)) (fun t => t.cp15.ttb) = some 0xFFFFC000 ∧
    refusal (exec (.mcrTtb 14 0) (start 0x30004004)) = some .sbzpFieldWritten := by decide

/-- V3 row 7. -/
theorem test_mrc_dacr :
    after (exec (.mrcDacr 14 1) (start 0 { State.reset.cp15 with dacr := 0x55555555 })) (fun t => t.readX 1) =
      some 0x55555555 := by decide

/-- V3 rows 9 to 12. -/
theorem test_mcr_dacr :
    after (exec (.mcrDacr 14 0) (start 0xC0000001))
      (fun t => (domainField t.cp15.dacr 15, domainField t.cp15.dacr 0, domainField t.cp15.dacr 1)) = some (3, 1, 0) ∧
    refusal (exec (.mcrDacr 14 0) (start 0x00000002)) = some .reservedDomainValueWritten ∧
    refusal (exec (.mcrDacr 14 0) (start 0x80000000)) = some .reservedDomainValueWritten ∧
    refusal (exec (.mcrDacr 14 0) (start 0xAAAAAAAA)) = some .reservedDomainValueWritten := by decide

/-! ### Registers 5 and 6 (V4) -/

/-- V4 row 1: page translation, data, domain 3. -/
theorem test_record_data : ∃ t, memStep (.fault .data .pageTranslation [] 3 0x40001234) running = .next t ∧
    t.cp15.dfsr = ⟨3, 0b0111⟩ ∧ t.cp15.dfar = 0x40001234 ∧ t.cp15.ifsr = ⟨0, 0⟩ ∧ t.cp15.ifar = 0 := by
  exact ⟨_, rfl, congrArg (Fsr.mk 3) (statusOf_plain 0b0111 _), rfl, rfl, rfl⟩

/-- V4 rows 5 and 8: section translation of a fetch; alignment, whose bit 1 is drawn. -/
theorem test_record_drawn :
    (∃ t, memStep (.fault .instruction .sectionTranslation [] 9 0x00008000) running = .next t ∧
      t.cp15.ifsr.status = 0b0101 ∧ t.cp15.ifar = 0x00008000 ∧ t.cp15.dfar = 0) ∧
    ∃ t, memStep (.fault .data .alignment [] 0 0x00001003) running = .next t ∧
      (t.cp15.dfsr.status = 0b0001 ∨ t.cp15.dfsr.status = 0b0011) ∧ t.cp15.dfar = 0x00001003 := by
  refine ⟨⟨_, rfl, statusOf_plain 0b0101 _, rfl, rfl⟩, ⟨_, rfl, ?_, rfl⟩⟩
  have h (x : BitVec 4) : mergeBits 0b0010 x 0b0001 = 0b0001 ∨ mergeBits 0b0010 x 0b0001 = 0b0011 := by
    revert x
    decide
  exact h _

/-- R209: a permission fault and a domain fault in a domain at 0b01 are recorded, in one at 0b11 they are not (R60); with
M = 0 no translation fault is; at an aligned address no alignment fault is. -/
theorem test_excluded_faults :
    (after (memStep (.fault .data .pagePermission [] 3 0x1000) (running 0x00000040)) fun t => t.draws) = some 3 ∧
    (after (memStep (.fault .data .pagePermission [] 3 0x1000) (running 0x000000C0)) fun t => t.draws) = some 0 ∧
    (after (memStep (.fault .data .sectionDomain [] 3 0x1000) (running 0x00000040)) fun t => t.draws) = some 3 ∧
    (after (memStep (.fault .data .sectionDomain [] 3 0x1000) (running 0x000000C0)) fun t => t.draws) = some 0 ∧
    (after (memStep (.fault .data .sectionTranslation [] 0 0) State.reset) fun t => t.draws) = some 0 ∧
    (after (memStep (.fault .data .alignment [] 0 0x1004) running) fun t => t.draws) = some 0 := by decide

/-- The default column and the alternative of 93 G9 for cause 10; the row the source lacks. -/
theorem test_fsr_codes :
    FsrCodes.source.code .sectionPermission = some (.plain 0b1111) ∧
    FsrCodes.generalKnowledge.code .sectionPermission = some (.plain 0b1101) ∧
    FsrCodes.source.code .pageNonLineFetch = none := by decide

/-- V4 rows 2 and 13: R & 0x1FF = 0x037, and 0x0F9. -/
theorem test_mrc_dfsr : ∃ t, exec (.mrcDfsr 14 0) (start 0 { State.reset.cp15 with dfsr := ⟨3, 0b0111⟩ }) = .next t ∧
    t.readX 0 &&& 0x1FF = 0x037 :=
  ⟨_, rfl, (drawnWord_masked State.reset .dfsr (Fsr.word ⟨3, 0b0111⟩)).trans (by decide)⟩

theorem test_mrc_ifsr : ∃ t, exec (.mrcIfsr 14 2) (start 0 { State.reset.cp15 with ifsr := ⟨15, 0b1001⟩ }) = .next t ∧
    t.readX 2 &&& 0x1FF = 0x0F9 :=
  ⟨_, rfl, (drawnWord_masked State.reset .ifsr (Fsr.word ⟨15, 0b1001⟩)).trans (by decide)⟩

/-- V4 rows 3 and 7. -/
theorem test_mrc_fault_address :
    after (exec (.mrcDfar 14 1) (start 0 { State.reset.cp15 with dfar := 0x40001234 })) (fun t => t.readX 1) =
      some 0x40001234 ∧
    after (exec (.mrcIfar 14 3) (start 0 { State.reset.cp15 with ifar := 0x00008000 })) (fun t => t.readX 3) =
      some 0x00008000 := by decide

/-! ### Register 8 (V5) -/

/-- V5 rows 1, 4, 7 and 9. -/
theorem test_tlb_all :
    tlbsAfter (.mcrItlbAll 14 0) 0 = some ([], [e2, e3]) ∧ tlbsAfter (.mcrDtlbAll 14 0) 0 = some ([e1, e2], []) ∧
    tlbsAfter (.mcrTlbAll 14 0) 0 = some ([], []) ∧
    refusal (exec (.mcrTlbAll 14 0) (start 1 tlbs)) = some .tlbRdNotZero := by decide

/-- V5 rows 2, 3, 5, 6 and 8. -/
theorem test_tlb_entry :
    tlbsAfter (.mcrItlbEntry 14 0) 0x00008010 = some ([e2], [e2, e3]) ∧
    tlbsAfter (.mcrItlbEntry 14 0) 0x80000000 = some ([e1, e2], [e2, e3]) ∧
    tlbsAfter (.mcrDtlbEntry 14 0) 0x40001234 = some ([e1, e2], []) ∧
    tlbsAfter (.mcrDtlbEntry 14 0) 0x40002000 = some ([e1, e2], [e3]) ∧
    tlbsAfter (.mcrTlbEntry 14 0) 0x40000000 = some ([e1], [e3]) := by decide

/-- V5 row 13: a fill while M = 1, and none while M = 0. -/
theorem test_tlb_fill :
    after (memStep (.fill .data e1) (start 0 { State.reset.cp15 with c1 := 0x0071 })) (fun t => t.cp15.dtlb) =
      some [e1] ∧
    after (memStep (.fill .data e1) State.reset) (fun t => t.cp15.dtlb) = some [] := by decide

/-! ### Registers 12 and 13 (V6) -/

/-- V6 rows 2, 3 and 5. -/
theorem test_mcr_vbase :
    after (exec (.mcrVbase 14 0) (start 0xFFFF0000)) (fun t => t.cp15.vbase) = some 0x7FFF800 ∧
    after (exec (.mcrVbase 14 0) (start 0x00000020)) (fun t => (t.cp15.vbase, t.outputs.vectorBase)) = some (1, 0x20) ∧
    refusal (exec (.mcrVbase 14 0) (start 0x0000001F)) = some .vbaseReservedBitsWritten := by decide

/-- V6 rows 8, 9 and 11. -/
theorem test_mcr_pid :
    after (exec (.mcrPid 14 0) (start 0x06000000)) (fun t => t.cp15.pid) = some 3 ∧
    after (exec (.mcrPid 14 0) (start 0xFE000000)) (fun t => t.cp15.pid) = some 127 ∧
    refusal (exec (.mcrPid 14 0) (start 0x06000001)) = some .sbzpFieldWritten := by decide

/-- V6 row 12. -/
theorem test_mrc_pid : ∃ t, exec (.mrcPid 14 1) (start 0 { State.reset.cp15 with pid := 3 }) = .next t ∧
    t.readX 1 &&& 0xFE000000 = 0x06000000 :=
  ⟨_, rfl, (drawnWord_masked State.reset .pid (pidWord 3)).trans (by decide)⟩

/-! ### Refusals and privilege (V7 and the refused rows of V1 to V6) -/

theorem test_refused_registers :
    refusal (runWord 0xEE140F10 State.reset) = some .reservedRegister ∧
    refusal (runWord 0xEE1B0F10 State.reset) = some .reservedRegister ∧
    refusal (runWord 0xEE1E0F10 State.reset) = some .reservedRegister ∧
    refusal (runWord 0xEE070F9A State.reset) = some .registerNotDescribed ∧
    refusal (runWord 0xEE190F10 State.reset) = some .registerNotDescribed ∧
    refusal (runWord 0xEE1A0F10 State.reset) = some .registerNotDescribed ∧
    refusal (runWord 0xEE1F0F10 State.reset) = some .register15 := by decide

theorem test_refused_forms :
    refusal (runWord 0xEE100F50 State.reset) = some .reservedOpcode2 ∧
    refusal (runWord 0xEE100F11 State.reset) = some .accessWithoutMeaning ∧
    refusal (runWord 0xEE000F10 State.reset) = some .writeOfRegister0 ∧
    refusal (runWord 0xEE010F30 State.reset) = some .accessWithoutMeaning ∧
    refusal (runWord 0xEE050F10 State.reset) = some .writeOfFaultRegister ∧
    refusal (runWord 0xEE160F30 State.reset) = some .accessWithoutMeaning ∧
    refusal (runWord 0xEE180F17 State.reset) = some .accessWithoutMeaning ∧
    refusal (runWord 0xEE1C0F10 State.reset) = some .readOfRegister12 ∧
    refusal (runWord 0xEE300F10 State.reset) = some .accessWithoutMeaning ∧
    refusal (runWord 0xEE10FF10 State.reset) = some .rdIsR15 := by decide

/-- V3 row 15, V5 row 14, V6 rows 7 and 15: cfgB. -/
theorem test_refused_cfgB :
    refusal (runWord 0xEE120F10 (startOf cfgB 0)) = some .formWithoutMmu ∧
    refusal (runWord 0xEE080F17 (startOf cfgB 0)) = some .formWithoutMmu ∧
    refusal (runWord 0xEE0C0F10 (startOf cfgB 0)) = some .reservedRegister ∧
    refusal (runWord 0xEE0D0F10 (startOf cfgB 0)) = some .accessWithoutMeaning := by decide

/-- V7 rows 10 to 12. -/
theorem test_unprivileged :
    faultOf (runWord 0xEE100F10 user) = some (.undefinedInstruction 0xEE100F10) ∧
    faultOf (runWord 0xEE140F10 user) = some (.undefinedInstruction 0xEE140F10) ∧
    faultOf (runWord 0xEE010F10 user) = some (.undefinedInstruction 0xEE010F10) := by decide

/-! ### The step -/

theorem test_step_of_placed_word :
    after (step (State.reset.withFetchWord 32 0xEE101F30)) (fun t => (t.readX 1, t.pc)) = some (0x0D172172, 4) ∧
    after (step (State.reset.withFetchWord 32 0x0E082F17)) (fun t => (t.cp15.itlb, t.pc)) = some ([], 4) ∧
    refusal (step (State.reset.withFetchWord 32 0x0E000F10)) = some .writeOfRegister0 := by decide

/-- Where the condition fails only the program counter moves (R115). -/
theorem test_step_condition :
    after (step { State.reset.placeWord 0x1E105F10 with turns := [.core true false] }) (fun t => (t.readX 5, t.pc)) =
      some (0, 4) ∧
    after (step { State.reset.placeWord 0x1E105F10 with turns := [.core true true] }) (fun t => (t.readX 5, t.pc)) =
      some (0x41129200, 4) := by decide

theorem test_step_faults :
    faultOf (step State.reset) = some .noInstruction ∧ faultOf (step { State.reset with pc := 2 }) = some .pcMisaligned ∧
    refusal (step (State.reset.placeWord 0xE1A00000)) = some (.undecodable .notRegisterTransfer) := by decide

theorem test_boot_order :
    readyToSetM [.mcrTtb 14 0, .mcrDacr 14 1, .mcrTlbAll 14 2] = true ∧
    readyToSetM [.mcrTtb 14 0, .mcrDacr 14 1, .mcrItlbAll 14 2] = false := by decide

/-! ### Witnesses: for each statement with hypotheses, states and operands that meet them, at the ends of their ranges -/

/-- The state side and the ends of the register range: every read and write of registers 0 to 13 (`Read…`, `Write…`,
`WholeTlbOperations…`, `SingleEntryOperations…`). -/
theorem witness_access : State.reset.CanAccess ∧ State.reset.cfg.memsys = .mmu ∧ State.reset.cfg.hasVbar = true ∧
    State.reset.cfg.hasPid = true ∧ (0 : BitVec 4).toNat < 15 ∧ (14 : BitVec 4).toNat < 15 := by decide

/-- `ReadMainIdMovesTheConstant`, `ReadCacheTypeMovesTheConstant`, `ReadControlReturnsBitsByKind`: no MMU is asked. -/
theorem witness_access_cfgB : (startOf cfgB 0).CanAccess ∧ (startOf cfgB 0).cfg.memsys = .none := by decide

/-- `WriteControlWritesTheRwBits`: the zero field, the preserved field, neither. -/
theorem witness_write_control :
    ((start 0x0000FFFF).readX 0).extractLsb' 16 16 = 0 := by decide

theorem witness_write_control_preserved :
    let s := start 0xFFFF0000 { State.reset.cp15 with lastRead := { LastRead.nothing with c1 := some 0xFFFF0070 } }
    s.CanAccess ∧ s.cp15.lastRead.c1 = some 0xFFFF0070 ∧
      (s.readX 0).extractLsb' 16 16 = (0xFFFF0070 : Word).extractLsb' 16 16 := by decide

theorem witness_write_control_refused :
    let s := start 0x00010000 { State.reset.cp15 with lastRead := { LastRead.nothing with c1 := some 0xFFFF0070 } }
    s.CanAccess ∧ (s.readX 0).extractLsb' 16 16 ≠ 0 ∧ s.cp15.lastRead.c1 = some 0xFFFF0070 ∧
      (s.readX 0).extractLsb' 16 16 ≠ (0xFFFF0070 : Word).extractLsb' 16 16 := by decide

/-- `ControlBitKindsAreTheTables`: a read and a write. -/
theorem witness_control_kinds : ∃ t u, exec (.mrcControl 14 14) State.reset = .next t ∧
    exec (.mcrControl 14 14) State.reset = .next u := ⟨_, _, rfl, rfl⟩

/-- `WrittenControlBitsAreExported`, `OldAndNewControlMayGovern` and its second clause. -/
theorem witness_written_control : ∃ t u, exec (.mcrControl 14 14) State.reset = .next t ∧
    memStep (.settle .c1 0) t = .next u := ⟨_, _, rfl, rfl⟩

/-- `OldAndNewControlMayGovern`, its clauses on register 3. -/
theorem witness_written_domains : ∃ t u, exec (.mcrDacr 14 0) (start 0xC0000001) = .next t ∧
    memStep (.settle .dacr 0) t = .next u := ⟨_, _, rfl, rfl⟩

/-- `ReadModifyWriteOfControlIsAdmitted`: the word read, into the same register and into another. -/
theorem witness_read_modify_write : ∃ t, exec (.mrcControl 14 0) State.reset = .next t ∧
    (14 : BitVec 4).toNat < 15 ∧ (t.readX 0).extractLsb' 16 16 = (t.readX 0).extractLsb' 16 16 :=
  ⟨_, rfl, by decide, rfl⟩

/-- `ControlReadsBackAsWritten`. -/
theorem witness_read_back : ∃ t u, exec (.mcrControl 14 0) (start 0x00001005) = .next t ∧
    exec (.mrcControl 14 14) t = .next u := ⟨_, _, rfl, rfl⟩

/-- `WriteTtbWritesTheBase`: the highest low bit decides; and a base without low bits. -/
theorem witness_write_ttb :
    (∀ n < 14, ((start 0xFFFFC000).readX 0).getLsbD n = false) ∧
    ((start 0x00002000).readX 0).getLsbD 13 = true ∧ (start 0x00002000).cp15.lastRead.ttb = none ∧
    State.reset.cfg.ttbLowBits = 14 ∧
    (startOf { Config.exampleA with ttbLowBits := 0 } 0xFFFFFFFF).CanAccess := by decide

theorem witness_write_ttb_preserved :
    let s := start 0x30006001 { State.reset.cp15 with lastRead := { LastRead.nothing with ttb := some 0x00002001 } }
    s.CanAccess ∧ s.cp15.lastRead.ttb = some 0x00002001 ∧
      ∀ n < s.cfg.ttbLowBits, (s.readX 0).getLsbD n = (0x00002001 : Word).getLsbD n := by decide

/-- `WriteDacrUnlessAFieldIsReserved`: the lowest and the highest field, and none. -/
theorem witness_write_dacr :
    ((start 0x00000002).readX 0).extractLsb' (2 * 0) 2 = 0b10#2 ∧
    ((start 0x80000000).readX 0).extractLsb' (2 * 15) 2 = 0b10#2 ∧
    ∀ n < 16, ((start 0xFFFFFFFF).readX 0).extractLsb' (2 * n) 2 ≠ 0b10#2 := by decide

/-- `WholeTlbOperationsEmptyTheirTlbs`: zero and not zero. -/
theorem witness_tlb_all : (start 0 tlbs).readX 0 = 0 ∧ (start 1 tlbs).readX 0 ≠ 0 ∧ (start 1 tlbs).CanAccess := by
  decide

/-- `SingleEntryOperationsKeepTheOthers`: the ends of an entry are covered, the addresses next to it are not. -/
theorem witness_covers : e1.covers 0x00008000 = true ∧ e1.covers 0x00008FFF = true ∧ e1.covers 0x00007FFF = false ∧
    e1.covers 0x00009000 = false := by decide

/-- `OnlyRegister8ChangesTheTlbs`, `AccessesChangeRdOrCp15Only` (a write), `OnlyItsOwnWriteChangesARegister`,
`WritesSupersedeOneValueOfTheirControl`. -/
theorem witness_write : ∃ t, exec (.mcrDacr 14 0) (start 0x55555555 tlbs) = .next t ∧
    (Instr.mcrDacr 14 0).access.crn ≠ 8 ∧ (Instr.mcrDacr 14 0).access.isRead = false ∧
    (Instr.mcrDacr 14 0).access ≠ writeOf 1 0 0 := ⟨_, rfl, by decide, by decide, by decide⟩

/-- `WriteVectorBaseIsAMultipleOf32`, `WritePidSetsTheIdentifier`: bit 4 and bit 24 decide. -/
theorem witness_write_vbase_pid :
    ((start 0xFFFFFFE0).readX 0).extractLsb' 0 5 = 0 ∧ ((start 0x00000010).readX 0).extractLsb' 0 5 ≠ 0 ∧
    ((start 0xFE000000).readX 0).extractLsb' 0 25 = 0 ∧ ((start 0x01000000).readX 0).extractLsb' 0 25 ≠ 0 ∧
    (start 0x01000000).cp15.lastRead.pid = none := by decide

theorem witness_write_pid_preserved :
    let s := start 0x0B000000 { State.reset.cp15 with lastRead := { LastRead.nothing with pid := some 0x01000000 } }
    s.CanAccess ∧ s.cp15.lastRead.pid = some 0x01000000 ∧
      (s.readX 0).extractLsb' 0 25 = (0x01000000 : Word).extractLsb' 0 25 := by decide

/-- `UnprivilegedAccessIsUndefined`, `AccessWithR15IsRefused`. -/
theorem witness_stops : user.cfg.valid = true ∧ user.privileged = false ∧ (Instr.mrcMainId 14 15).rd = 15 := by decide

/-- `InvalidConfigurationIsRefused`, clause by clause. -/
theorem witness_invalid_configuration :
    (0x41000000 : Word).extractLsb' 12 4 = 0x0#4 ∧ (0x41007000 : Word).extractLsb' 12 4 = 0x7#4 ∧
    (Config.exampleA.ctrValue.getLsbD 24 = true ∧ CacheKind.unified ≠ .separate) ∧
    cfgB.ctrValue.getLsbD 24 = false := by decide

/-- The configuration cfgA with a protection unit in place of the MMU. -/
def withPu : State := startOf { Config.exampleA with memsys := .pu } 0

/-- `ReservedRegistersAreRefused`, clause by clause. -/
theorem witness_reserved :
    withPu.CanAccess ∧ (Instr.otherAccess 14 true 0 4 0 0 0).access.crn = 4 ∧
    (Instr.otherAccess 14 true 0 11 0 0 0).access.crn = 11 ∧ (Instr.otherAccess 14 true 0 14 0 0 0).access.crn = 14 ∧
    ((Instr.mcrVbase 14 0).access.crn = 12 ∧ (startOf cfgB 0).cfg.hasVbar = false) ∧
    ((Instr.mcrTlbAll 14 0).access.crn = 8 ∧ withPu.cfg.memsys = .pu) ∧
    (Instr.otherAccess 14 true 0 10 0 0 0).access.crn = 10 ∧ (Instr.otherAccess 14 true 0 4 0 0 0).rd ≠ 15 := by decide

/-- `UndescribedRegistersAreRefused`, `Register15IsRefused`, `FormsWithoutAnMmuAreRefused`, clause by clause. -/
theorem witness_undescribed :
    (Instr.otherAccess 14 false 0 7 0 0 0).access.crn = 7 ∧ (Instr.otherAccess 14 true 0 9 0 0 0).access.crn = 9 ∧
    ((Instr.otherAccess 14 true 0 10 0 0 0).access.crn = 10 ∧ State.reset.cfg.memsys = .mmu) ∧
    (Instr.otherAccess 14 true 0 15 0 0 0).access.crn = 15 ∧
    ((Instr.mrcTtb 14 0).access.crn = 2 ∧ withPu.cfg.memsys ≠ .mmu) ∧ (Instr.mrcDacr 14 0).access.crn = 3 ∧
    (Instr.mrcDfsr 14 0).access.crn = 5 ∧ (Instr.mrcDfar 14 0).access.crn = 6 ∧
    ((Instr.mcrTlbAll 14 0).access.crn = 8 ∧ (startOf cfgB 0).cfg.memsys = .none) := by decide

/-- `ReservedOpcode2OfRegister0IsRefused` at both ends, `NonzeroOp1IsRefused` at both ends and clause by clause,
`FormsNotShownAreRefused`, `UnlistedAccessesAreRefused`. -/
theorem witness_forms :
    2 ≤ (2 : BitVec 3).toNat ∧ 2 ≤ (7 : BitVec 3).toNat ∧ (1 : BitVec 3) ≠ 0 ∧ (7 : BitVec 3) ≠ 0 ∧
    (1 : BitVec 4) ≠ 0 ∧ (15 : BitVec 4) ≠ 0 ∧
    (14 : BitVec 4) ≠ 15 ∧ State.reset.CanAccess ∧ State.reset.cfg.memsys = .mmu ∧
    State.reset.cfg.hasVbar = true := by decide

/-- `UnlistedAccessesAreRefused`, its clause on register 13: a read and a write of R118, and an unlisted tuple. -/
theorem witness_no_pid :
    (startOf cfgB 0).CanAccess ∧ (startOf cfgB 0).cfg.hasPid = false ∧ (Instr.mrcPid 14 14).access.crn = 13 ∧
    (Instr.mcrPid 14 0).access.crn = 13 ∧ (Instr.otherAccess 14 true 7 13 0 7 15).access.crn = 13 ∧
    (Instr.mrcPid 14 14).rd ≠ 15 := by decide

/-- `FaultIsRecordedInThePairOfItsKind`, for a cause whose domain is valid and for one whose is not. -/
theorem witness_fault :
    let s := { running with turns := [.memSystem (.fault .data .pageDomain [] 15 0xFFFFFFFF)] }
    s.cfg.valid = true ∧ s.cfg.memsys = .mmu ∧ s.cfg.fsrCodes.code .pageDomain = some (.plain 0b1101) ∧
      s.faultMayArise .pageDomain 15 0xFFFFFFFF = true ∧ s.domainMayGovern 15 0b10 = false ∧
      s.cfg.fsrCodes.code .terminal = some (.plain 0b0010) ∧ s.faultMayArise .terminal 0 0 = true ∧
      FaultCause.domainValid .terminal = false := by decide

/-- `RecordedFaultIsTheTablesRow`: the first and the last row, in both pairs, and a row that needs M = 1. -/
theorem witness_fault_recorded : State.reset.cfg.fsrCodes = .source ∧
    State.reset.faultMayArise .terminal 0 0 = true ∧ running.faultMayArise .pageDomain 15 0 = true ∧
    ∃ t u v, memStep (.fault .data .terminal [] 0 0) State.reset = .next t ∧
      memStep (.fault .instruction .sectionNonLineFetch [] 15 0xFFFFFFFF) State.reset = .next u ∧
      memStep (.fault .instruction .pageDomain [] 15 0) running = .next v :=
  ⟨rfl, by decide, by decide, _, _, _, rfl, rfl, rfl⟩

/-- `ExcludedFaultsAreNotRecorded`: the lowest and the highest cause that need M = 1, the lowest and the highest that need
a domain other than 0b11, a domain at 0b11, an aligned address, A = 0. -/
theorem witness_excluded :
    (4 ≤ FaultCause.number .firstLevelAccess ∧ FaultCause.number .pagePermission ≤ 11) ∧
    (State.reset.cfg.controlValue State.reset.cp15.c1).getLsbD 0 = false ∧ State.reset.cp15.window.c1 = [] ∧
    FaultCause.number .sectionDomain = 8 ∧ FaultCause.number .pagePermission = 11 ∧
    (running 0xC0000000).cp15.dacr.extractLsb' (2 * (15 : BitVec 4).toNat) 2 = 0b11#2 ∧
    (running 0xC0000000).cp15.window.dacr = [] ∧ FaultCause.number .alignment = 3 ∧
    (0xFFFFFFFC : Word).extractLsb' 0 2 = 0#2 ∧
    (State.reset.cfg.controlValue State.reset.cp15.c1).getLsbD 1 = false ∧ running.cfg.memsys = .mmu := by decide

/-- `ExcludedFaultsAreNotRecorded`, its refusals: no MMU; a domain at 0b10; a cause without a code. -/
theorem witness_refused_faults :
    (startOf cfgB 0).cfg.memsys ≠ .mmu ∧
    (running.cfg.memsys = .mmu ∧ (running 0x80000000).faultMayArise .sectionDomain 15 0 = true ∧
      FaultCause.domainValid .sectionDomain = true ∧
      (running 0x80000000).cp15.dacr.extractLsb' (2 * (15 : BitVec 4).toNat) 2 = 0b10#2) ∧
    running.faultMayArise .pageNonLineFetch 15 0 = true ∧ running.cfg.fsrCodes.code .pageNonLineFetch = none ∧
    running.domainMayGovern 15 0b10 = false := by decide

/-- `HighestPriorityCauseIsRecorded` and `LaterFaultOverwritesTheRecord`: the cause first named; one named after it; and
the highest named that cannot arise, passed over. -/
theorem witness_priority :
    (∀ j ∈ [FaultCause.terminal, .vector], FaultCause.number .terminal ≤ j.number) ∧
    (running.faultMayArise .alignment 0 1 = true ∧
      ∀ j ∈ [FaultCause.sectionNonLineFetch, .alignment, .pageDomain], FaultCause.number .alignment ≤ j.number) ∧
    State.reset.faultMayArise .alignment 0 1 = false ∧ State.reset.faultMayArise .sectionNonLineFetch 0 1 = true ∧
    State.reset.faultMayArise .terminal 0 0 = true := by decide

/-- `TranslationsEnterOnlyWhereMMayGovern`: M held, M superseded, M clear, no MMU. -/
theorem witness_fill :
    (running.cfg.controlValue running.cp15.c1).getLsbD 0 = true ∧
    (State.reset.cfg.controlValue 0x0071).getLsbD 0 = true ∧
    (0x0071 : BitVec 16) ∈ ({ Window.empty with c1 := [0x0071] } : Window).c1 ∧
    (∀ c1 ∈ State.reset.cp15.c1 :: State.reset.cp15.window.c1, (State.reset.cfg.controlValue c1).getLsbD 0 = false) ∧
    (startOf cfgB 0).cfg.memsys ≠ .mmu :=
  ⟨by decide, by decide, by decide, fun c1 h => by cases List.mem_singleton.mp h; decide, by decide⟩

/-- `StepRunsTheDecodedInstruction`, its clause on the memory system agent, for an event of each kind. -/
theorem witness_mem_step :
    let turns (e : MemEvent) : State := { running with turns := [.memSystem e] }
    running.cfg.valid = true ∧ (after (step (turns (.fill .data e1))) fun t => (t.cp15.dtlb, t.turns)) = some ([e1], []) ∧
      (after (step (turns (.drop .data e1))) fun t => (t.cp15.dtlb, t.turns)) = some ([], []) ∧
      (after (step (turns (.settle .c1 0))) fun t => t.turns) = some [] ∧
      (after (step (turns (.fault .data .terminal [] 0 0))) fun t => t.turns) = some [] := by decide

/-- `StepStopsWithoutAnInstruction`: a misaligned program counter, the highest byte of a word not listed, and a word that
names another coprocessor. -/
theorem witness_step_stops :
    State.reset.cfg.valid = true ∧ State.reset.turns = [] ∧ (3 : Word).extractLsb' 0 2 ≠ 0 ∧
      (let s := { State.reset with mem := State.reset.mem.writeBytes 0 [1, 2, 3] }
       s.mem.read (s.pc + 2) = some 3 ∧ s.mem.read (s.pc + 3) = none) ∧
      (let s := State.reset.placeWord 0xEE100E10
       s.pc.extractLsb' 0 2 = 0 ∧ s.mem.read s.pc = some 0x10 ∧ s.mem.read (s.pc + 3) = some 0xEE ∧
         decode s.cfg.fetchOrder [0x10, 0x0E, 0x10, 0xEE] = .error .otherCoprocessor) := by decide

/-- `StepRunsTheDecodedInstruction`, on core turns: a condition that is "always", one that passes, one that fails. -/
theorem witness_step :
    let s := State.reset.placeWord 0x1E105F10
    s.cfg.valid = true ∧ fetchBytes s.mem s.pc = .ok [0x10, 0x5F, 0x10, 0x1E] ∧
      decode s.cfg.fetchOrder [0x10, 0x5F, 0x10, 0x1E] = .ok (.mrcMainId 1 5, []) ∧ s.turns = [] ∧
      (Instr.mrcMainId 14 5).cond = 0b1110 ∧ (Instr.mrcMainId 1 5).cond ≠ 0b1110 := by decide

/-- `PlacedWordIsRunNext`, at the top of the address space. -/
theorem witness_placed :
    let s := { State.reset with pc := 0xFFFFFFFC }
    s.cfg.valid = true ∧ s.pc.extractLsb' 0 2 = 0 ∧ decodeTableWord 32 0xEE100F10 = some (.mrcMainId 14 0) ∧
      after (step (s.withFetchWord 32 0xEE100F10)) (fun t => (t.readX 0, t.pc)) = some (0x41129200, 0) := by decide

/-- `DecodeOfEncodeIsTheInstruction`, for a listed and for an unlisted tuple, with the highest fields;
`EncodeOfDecodeIsTheWord`. -/
theorem witness_wf : (Instr.mrcPid 0 15).wf = true ∧ (Instr.otherAccess 14 true 7 15 15 7 15).wf = true ∧
    decodeWord 0xEEFFFFFF = .ok (.otherAccess 14 true 7 15 15 7 15) := by decide

/-- `StepKeepsTheInvariant`, `StepKeepsDomainsUnreserved`, `StepKeepsGhostsReadable`, `StepKeepsTheConstants`. -/
theorem witness_invariants :
    let s := (start 0x00000001 tlbs).withFetchWord 32 0xEE030F10
    s.Inv ∧ s.DomainsInUse ∧ s.GhostsReadable ∧ (after (step s) fun t => t.cp15.dacr) = some 1 :=
  ⟨⟨Memory.writeBytes_wf State.reset_mem_wf _ _, by decide⟩,
    fun d h => by cases List.mem_singleton.mp h; decide,
    ⟨(fun v h => by cases h), (fun v h => by cases h), (fun v h => by cases h)⟩, by decide⟩

/-- `RunsStartInTheInvariant`: TLBs that are not empty. -/
theorem witness_runs_start : tlbs.itlb.Nodup ∧ tlbs.dtlb.Nodup := by decide

/-- `ReadsChangeOnlyTheGhost`, `DrawsReachOnlyReservedFields`. -/
theorem witness_read : ∃ t, exec (.mrcPid 14 14) State.reset = .next t ∧ (Instr.mrcPid 14 14).access.isRead = true :=
  ⟨_, rfl, rfl⟩

/-- `StepKeepsDomainsUnreserved`, its clause on refusals. -/
theorem witness_domains : State.reset.DomainsInUse := fun d h => by cases List.mem_singleton.mp h; decide

/-- `UnprivilegedCodeCannotChangeCp15`: an unprivileged step that answers a next state, since its condition fails, with a
turn listed and with none. -/
theorem witness_unprivileged_turn :
    let s := { State.reset.placeWord 0x0E010F10 with turns := [.core false false] }
    let u := { user.placeWord 0x0E010F10 with condPassed := false }
    s.turns = .core false false :: [] ∧ (after (step s) fun t => t.pc) = some 4 ∧
      (u.turns = [] ∧ u.privileged = false) ∧ (after (step u) fun t => t.pc) = some 4 := by decide

end Sys2Proof.Tests
end

section
/-!
PROOFS. Family 00_scope.md: what the free values of an access reach (R10), and where a core step stops (R3).
-/
namespace Sys2Proof.Machine

/-! ### The core registers after a read -/

/-- The advance of the program counter changes none of R0 to R14. -/
theorem State.readX_advance (s : State) {j : BitVec 4} (h : j.toNat < 15) : s.advance.readX j = s.readX j := by
  simp [State.readX, h]

/-- A read delivers its word in `Rd`. -/
theorem State.readX_deliver (s : State) {rd : BitVec 4} (h : rd.toNat < 15) (v : Word) :
    (s.deliver rd v).readX rd = v := by
  rw [State.deliver, State.readX_advance _ h, State.readX_writeX _ h]

/-- A read leaves every register but `Rd` alone. -/
theorem State.readX_deliver_of_ne (s : State) {rd j : BitVec 4} (h : rd.toNat < 15) (hj : j.toNat < 15) (hne : j ≠ rd)
    (v : Word) : (s.deliver rd v).readX j = s.readX j := by
  rw [State.deliver, State.readX_advance _ hj, State.readX_writeX_of_ne _ h hj hne]

theorem State.readX_deliverDrawn (s : State) (r : ReservedReg) (held : Word) {rd : BitVec 4} (h : rd.toNat < 15) :
    (s.deliverDrawn r held rd).readX rd = s.drawnWord r held :=
  State.readX_deliver _ h _

theorem State.readX_deliverDrawn_of_ne (s : State) (r : ReservedReg) (held : Word) {rd j : BitVec 4}
    (h : rd.toNat < 15) (hj : j.toNat < 15) (hne : j ≠ rd) : (s.deliverDrawn r held rd).readX j = s.readX j :=
  State.readX_deliver_of_ne _ h hj hne _

/-! ### The counter of draws (log entry 5) -/

/-- Outside the reserved field a drawn word is the held one, whatever was drawn (R75). -/
theorem State.drawnWord_and_not_reservedMask (s : State) (r : ReservedReg) (held : Word) :
    s.drawnWord r held &&& ~~~reservedMask s.cfg r = held &&& ~~~reservedMask s.cfg r := by
  rw [and_eq_and_iff]
  intro n hn
  have hm : (reservedMask s.cfg r).getLsbD n = false := by
    rw [BitVec.getLsbD_not] at hn
    simpa using (Bool.and_eq_true_iff.mp hn).2
  exact s.getLsbD_drawnWord r held hm

/-- The checks before an access do not ask for the counter of draws. -/
theorem Passes.withDraws {i : Instr} {s : State} (h : Passes i s) (n : Nat) : Passes i { s with draws := n } :=
  ⟨h.valid, h.privileged, h.rd, h.admits⟩

/-- A read without drawn bits carries the counter of draws along. -/
theorem State.deliver_withDraws (s : State) {rd : BitVec 4} (h : rd.toNat < 15) (v : Word) (n : Nat) :
    ({ s with draws := n } : State).deliver rd v = { s.deliver rd v with draws := n } := by
  rw [State.deliver_eq _ h, State.deliver_eq _ h]

/-- An access under another counter of draws: it ends in the same state but for the counter, or it is a read of a register
with a reserved field, of the same held bits, whose drawn bits are those of its register number (R75). -/
theorem exec_withDraws {i : Instr} {s t : State} (h : exec i s = .next t) (n : Nat) :
    exec i { s with draws := n } = .next { t with draws := n } ∨
      ∃ r held, drawnBits s.cfg i.access.crn = reservedMask s.cfg r ∧ t = s.deliverDrawn r held i.rd ∧
        exec i { s with draws := n } = .next (({ s with draws := n } : State).deliverDrawn r held i.rd) := by
  cases i with
  | mrcMainId cond rd | mrcCacheType cond rd | mrcDacr cond rd | mrcDfar cond rd | mrcIfar cond rd =>
    obtain ⟨hp, hm⟩ := admitted_next h
    cases hm
    exact .inl ((admitted_of_passes (hp.withDraws n) _).trans (congrArg _ (s.deliver_withDraws hp.rd _ n)))
  | mrcControl cond rd | mrcTtb cond rd | mrcDfsr cond rd | mrcIfsr cond rd | mrcPid cond rd =>
    obtain ⟨hp, hm⟩ := admitted_next h
    cases hm
    exact .inr ⟨_, _, rfl, rfl, admitted_of_passes (hp.withDraws n) _⟩
  | mcrControl cond rd | mcrTtb cond rd | mcrVbase cond rd | mcrPid cond rd =>
    obtain ⟨hp, hm⟩ := admitted_next h
    obtain ⟨hw, rfl⟩ := next_of_ite hm
    exact .inl ((admitted_of_passes (hp.withDraws n) _).trans (if_pos hw))
  | mcrDacr cond rd =>
    obtain ⟨hp, hm⟩ := admitted_next h
    split at hm
    · cases hm
    · next hw =>
      cases hm
      exact .inl ((admitted_of_passes (hp.withDraws n) _).trans (if_neg hw))
  | mcrItlbAll cond rd | mcrDtlbAll cond rd | mcrTlbAll cond rd =>
    obtain ⟨hp, hm⟩ := admitted_next h
    obtain ⟨hw, rfl⟩ := wholeTlb_next hm
    exact .inl ((admitted_of_passes (hp.withDraws n) _).trans (if_pos hw))
  | mcrItlbEntry cond rd | mcrDtlbEntry cond rd | mcrTlbEntry cond rd =>
    obtain ⟨hp, hm⟩ := admitted_next h
    cases hm
    exact .inl (admitted_of_passes (hp.withDraws n) _)
  | otherAccess cond isRead op1 crn rd op2 crm =>
    obtain ⟨-, hm⟩ := admitted_next h
    cases hm

/-- Settles O60, by the two ways an access can end under another counter of draws: where it draws, both words delivered
are the held one outside the reserved field. -/
theorem drawsReachOnlyReservedFields : Obligations.DrawsReachOnlyReservedFields := by
  intro i s t n h
  have hrd := (exec_next h).1.rd
  rcases exec_withDraws h n with hu | ⟨r, held, hmask, rfl, hu⟩
  · exact ⟨_, hu, rfl, rfl, fun _ _ _ => rfl, rfl⟩
  · refine ⟨_, hu, ?_, ?_, fun j hj hne => ?_, ?_⟩
    · rw [State.deliverDrawn_eq _ _ _ hrd, State.deliverDrawn_eq _ _ _ hrd]
    · rw [State.deliverDrawn_eq _ _ _ hrd, State.deliverDrawn_eq _ _ _ hrd]
    · rw [State.readX_deliverDrawn_of_ne _ _ _ hrd hj hne, State.readX_deliverDrawn_of_ne _ _ _ hrd hj hne]
      rfl
    · rw [State.readX_deliverDrawn _ _ _ hrd, State.readX_deliverDrawn _ _ _ hrd, hmask]
      exact (State.drawnWord_and_not_reservedMask { s with draws := n } r held).trans
        (s.drawnWord_and_not_reservedMask r held).symm

/-! ### A core step without an instruction (log entries 13, 14) -/

/-- At a misaligned address the fetch stops (10_state.md R71). -/
theorem fetchBytes_misaligned {m : Memory} {pc : Word} (h : pc.extractLsb' 0 2 ≠ 0) :
    fetchBytes m pc = .error .pcMisaligned := if_pos h

/-- Where one of the four bytes is not listed the fetch stops (70_reset_and_hazards.md R238). -/
theorem fetchBytes_unlisted {m : Memory} {pc : Word} (ha : pc.extractLsb' 0 2 = 0)
    (h : m.read pc = none ∨ m.read (pc + 1) = none ∨ m.read (pc + 2) = none ∨ m.read (pc + 3) = none) :
    fetchBytes m pc = .error .noInstruction := by
  rw [fetchBytes, if_neg (not_not_intro ha)]
  split
  · next h0 h1 h2 h3 =>
    rw [h0, h1, h2, h3] at h
    simp at h
  · rfl

/-- Four listed bytes are fetched in the order of their addresses (30_encoding.md R114). -/
theorem fetchBytes_listed {m : Memory} {pc : Word} {b0 b1 b2 b3 : Byte} (ha : pc.extractLsb' 0 2 = 0)
    (h0 : m.read pc = some b0) (h1 : m.read (pc + 1) = some b1) (h2 : m.read (pc + 2) = some b2)
    (h3 : m.read (pc + 3) = some b3) : fetchBytes m pc = .ok [b0, b1, b2, b3] := by
  rw [fetchBytes, if_neg (not_not_intro ha), h0, h1, h2, h3]

theorem coreStep_of_fetch_error {s : State} {f : Fault} (h : fetchBytes s.mem s.pc = .error f) :
    coreStep s = .fault f := by
  rw [coreStep, h]

theorem coreStep_of_decode_error {s : State} {bytes : List Byte} {e : DecodeError}
    (hf : fetchBytes s.mem s.pc = .ok bytes) (hd : decode s.cfg.fetchOrder bytes = .error e) :
    coreStep s = .refused (.undecodable e) := by
  simp only [coreStep, hf, hd]

/-- On a core's turn, listed or by default, the step is the core's, from a state with the same configuration, memory and
program counter. -/
theorem step_coreTurn {s : State} (hv : s.cfg.valid = true)
    (ht : s.turns = [] ∨ ∃ (p c : Bool) (later : List Turn), s.turns = .core p c :: later) :
    ∃ u, step s = coreStep u ∧ u.cfg = s.cfg ∧ u.mem = s.mem ∧ u.pc = s.pc := by
  rcases ht with ht | ⟨p, c, later, ht⟩
  · exact ⟨s, by simp [step, hv, ht], rfl, rfl, rfl⟩
  · exact ⟨({ s with turns := later } : State).withInputs p c, by simp [step, hv, ht], rfl, rfl, rfl⟩

/-- Settles O44: the step is the core's (`step_coreTurn`), and either its fetch or its decoder stops it. -/
theorem stepStopsWithoutAnInstruction : Obligations.StepStopsWithoutAnInstruction := by
  intro s hv ht
  obtain ⟨u, hu, hcfg, hmem, hpc⟩ := step_coreTurn hv ht
  rw [hu, ← hcfg, ← hmem, ← hpc]
  exact ⟨fun h => coreStep_of_fetch_error (fetchBytes_misaligned h),
    fun ha h => coreStep_of_fetch_error (fetchBytes_unlisted ha h),
    fun _ _ _ _ _ ha h0 h1 h2 h3 hd => coreStep_of_decode_error (fetchBytes_listed ha h0 h1 h2 h3) hd⟩

end Sys2Proof.Machine
end

section
/-!
PROOFS. Family 10_state.md: the invariants every step keeps (R60, R62, R64, R71, R73, R75), the kinds of the control bits
(R73), the read-modify-write sequence (R75), the excluded configurations (R25, R32), and the start of a run (R74).
-/
namespace Sys2Proof.Machine

/-! ### What the parts of a step leave unchanged -/

@[simp] theorem State.deliver_cfg (s : State) (rd : BitVec 4) (v : Word) : (s.deliver rd v).cfg = s.cfg :=
  s.writeX_cfg rd v

@[simp] theorem State.deliver_privileged (s : State) (rd : BitVec 4) (v : Word) :
    (s.deliver rd v).privileged = s.privileged := s.writeX_privileged rd v

@[simp] theorem State.deliver_mem (s : State) (rd : BitVec 4) (v : Word) : (s.deliver rd v).mem = s.mem :=
  s.writeX_mem rd v

@[simp] theorem State.deliver_cp15 (s : State) (rd : BitVec 4) (v : Word) : (s.deliver rd v).cp15 = s.cp15 :=
  s.writeX_cp15 rd v

theorem State.deliver_pc (s : State) {rd : BitVec 4} (h : rd.toNat < 15) (v : Word) :
    (s.deliver rd v).pc = s.pc + 4 := by
  rw [State.deliver_eq s h]

@[simp] theorem State.deliverDrawn_cfg (s : State) (r : ReservedReg) (held : Word) (rd : BitVec 4) :
    (s.deliverDrawn r held rd).cfg = s.cfg := State.deliver_cfg _ _ _

@[simp] theorem State.deliverDrawn_privileged (s : State) (r : ReservedReg) (held : Word) (rd : BitVec 4) :
    (s.deliverDrawn r held rd).privileged = s.privileged := State.deliver_privileged _ _ _

@[simp] theorem State.deliverDrawn_mem (s : State) (r : ReservedReg) (held : Word) (rd : BitVec 4) :
    (s.deliverDrawn r held rd).mem = s.mem := State.deliver_mem _ _ _

@[simp] theorem State.deliverDrawn_cp15 (s : State) (r : ReservedReg) (held : Word) (rd : BitVec 4) :
    (s.deliverDrawn r held rd).cp15 =
      { s.cp15 with lastRead := s.cp15.lastRead.set r (s.drawnWord r held) } := State.deliver_cp15 _ _ _

theorem State.deliverDrawn_pc (s : State) (r : ReservedReg) (held : Word) {rd : BitVec 4} (h : rd.toNat < 15) :
    (s.deliverDrawn r held rd).pc = s.pc + 4 := State.deliver_pc _ h _

/-- The frame of every access outside the registers and CP15 (R29, R39, R71). -/
theorem AccessDone.frame {i : Instr} {s t : State} (hrd : i.rd.toNat < 15) (h : AccessDone i s t) :
    t.cfg = s.cfg ∧ t.mem = s.mem ∧ t.pc = s.pc + 4 := by
  cases h with
  | read v => exact ⟨s.deliver_cfg _ _, s.deliver_mem _ _, s.deliver_pc hrd _⟩
  | drawn r held h => exact ⟨s.deliverDrawn_cfg _ _ _, s.deliverDrawn_mem _ _ _, s.deliverDrawn_pc _ _ hrd⟩
  | write c h => exact ⟨rfl, rfl, rfl⟩

/-- A write leaves the ghosts alone. -/
theorem WrittenTo.lastRead_eq {s : State} {w : Word} {c : Cp15} (h : WrittenTo s w c) :
    c.lastRead = s.cp15.lastRead := by
  cases h <;> rfl

/-- The frame of every step of the memory system agent outside CP15. -/
theorem MemDone.frame {s t : State} (h : MemDone s t) : t.cfg = s.cfg ∧ t.mem = s.mem ∧ t.pc = s.pc := by
  cases h <;> exact ⟨rfl, rfl, rfl⟩

/-- The memory system agent leaves the ghosts alone. -/
theorem MemDone.lastRead_eq {s t : State} (h : MemDone s t) : t.cp15.lastRead = s.cp15.lastRead := by
  cases h with
  | unchanged | settle => rfl
  | record side | fill side | drop side => cases side <;> rfl

/-- A property that does not ask whose turn it is, and that every access, the advance of the program counter and every
step of the memory system agent keep, is kept by every step. -/
theorem step_keeps {P : State → Prop} {s t : State}
    (turn : ∀ (u : State) (rest : List Turn) (p c : Bool),
      P u → P { u with turns := rest, privileged := p, condPassed := c })
    (access : ∀ (i : Instr) (u v : State), Passes i u → AccessDone i u v → P u → P v)
    (advance : ∀ u : State, P u → P u.advance)
    (memSystem : ∀ u v : State, MemDone u v → P u → P v)
    (h : step s = .next t) (hs : P s) : P t := by
  obtain ⟨-, ⟨p, c, rest, hc⟩ | ⟨event, rest, hm⟩⟩ := step_next h
  · have hu := turn s rest p c hs
    rcases coreStep_next hc with ⟨i, hi⟩ | rfl
    · obtain ⟨hp, hd⟩ := exec_next hi
      exact access i _ t hp hd hu
    · exact advance _ hu
  · exact memSystem _ t (memStep_next hm) (turn s rest s.privileged s.condPassed hs)

/-! ### The constants (R29, R39) -/

/-- Settles O55: it is the frame of each part of a step. -/
theorem stepKeepsTheConstants : Obligations.StepKeepsTheConstants := by
  intro s t h
  refine step_keeps (P := fun u => u.cfg = s.cfg ∧ u.mem = s.mem) (fun _ _ _ _ => id) ?_ (fun _ => id) ?_ h
    ⟨rfl, rfl⟩
  · rintro i u v hp hd ⟨hcfg, hmem⟩
    obtain ⟨ecfg, emem, -⟩ := hd.frame hp.rd
    exact ⟨ecfg.trans hcfg, emem.trans hmem⟩
  · rintro u v hd ⟨hcfg, hmem⟩
    obtain ⟨ecfg, emem, -⟩ := hd.frame
    exact ⟨ecfg.trans hcfg, emem.trans hmem⟩

/-! ### The invariant of the state (R58, R64, R71, R73) -/

/-- The part of the invariant that speaks of CP15. -/
def Cp15.Canonical (cfg : Config) (c : Cp15) : Prop :=
  cfg.controlValue c.c1 = c.c1 ∧ c.ttb &&& cfg.ttbLowMask = 0 ∧ c.itlb.Nodup ∧ c.dtlb.Nodup

theorem State.inv_iff (s : State) :
    s.Inv ↔ s.mem.wf ∧ s.pc.extractLsb' 0 2 = 0 ∧ s.cp15.Canonical s.cfg := Iff.rfl

/-- The next word after a word-aligned address is word aligned. -/
theorem aligned_add_four {pc : Word} (h : pc.extractLsb' 0 2 = 0) : (pc + 4).extractLsb' 0 2 = 0 := by
  have hpc : pc.toNat % 4 = 0 := by simpa using congrArg BitVec.toNat h
  have hnext : (pc + 4).toNat % 4 = 0 := by
    simp only [BitVec.toNat_add, show (4 : Word).toNat = 4 from rfl]
    omega
  exact BitVec.eq_of_toNat_eq (by simpa using hnext)

/-- A write of register 2 puts nothing in the low bits, where the ones held are 0. -/
theorem Cp15.writeTtb_ttb_and_lowMask (c : Cp15) (cfg : Config) (w : Word) :
    (c.writeTtb cfg w).ttb &&& cfg.ttbLowMask = c.ttb &&& cfg.ttbLowMask := by
  have h := mergeBits_and_not (~~~cfg.ttbLowMask) w c.ttb
  rwa [BitVec.not_not] at h

theorem Tlb.without_nodup {t : Tlb} (h : t.Nodup) (va : Word) : (t.without va).Nodup := List.Nodup.filter _ h

theorem Tlb.remove_nodup {t : Tlb} (h : t.Nodup) (e : TlbEntry) : (t.remove e).Nodup := List.Nodup.filter _ h

theorem Tlb.add_nodup {t : Tlb} (h : t.Nodup) (e : TlbEntry) : (t.add e).Nodup := by
  unfold Tlb.add
  split
  · exact h
  · next hne => exact List.nodup_cons.mpr ⟨hne, h⟩

/-- A TLB of a canonical CP15 has no repeats, and giving it others without repeats keeps CP15 canonical. -/
theorem Cp15.Canonical.withTlb {cfg : Config} {c : Cp15} (h : c.Canonical cfg) (side : Side) {f : Tlb → Tlb}
    (hf : ∀ t : Tlb, t.Nodup → (f t).Nodup) : (c.withTlb side (f (c.tlb side))).Canonical cfg := by
  obtain ⟨hc1, httb, hitlb, hdtlb⟩ := h
  cases side with
  | data => exact ⟨hc1, httb, hitlb, hf _ hdtlb⟩
  | instruction => exact ⟨hc1, httb, hf _ hitlb, hdtlb⟩

theorem Cp15.Canonical.recordPair {cfg : Config} {c : Cp15} (h : c.Canonical cfg) (side : Side) (fsr : Fsr)
    (far : Word) : (c.recordPair side fsr far).Canonical cfg := by
  cases side <;> exact h

/-- Every write keeps CP15 canonical. -/
theorem WrittenTo.canonical {s : State} {w : Word} {c : Cp15} (h : WrittenTo s w c) (hs : s.cp15.Canonical s.cfg) :
    c.Canonical s.cfg := by
  obtain ⟨hc1, httb, hitlb, hdtlb⟩ := hs
  cases h with
  | control _ => exact ⟨s.cfg.controlValue_merge _ _ hc1, httb, hitlb, hdtlb⟩
  | ttb _ => exact ⟨hc1, (s.cp15.writeTtb_ttb_and_lowMask s.cfg w).trans httb, hitlb, hdtlb⟩
  | dacr _ | vbase _ | pid _ => exact ⟨hc1, httb, hitlb, hdtlb⟩
  | itlbAll _ => exact ⟨hc1, httb, List.nodup_nil, hdtlb⟩
  | itlbEntry => exact ⟨hc1, httb, Tlb.without_nodup hitlb w, hdtlb⟩
  | dtlbAll _ => exact ⟨hc1, httb, hitlb, List.nodup_nil⟩
  | dtlbEntry => exact ⟨hc1, httb, hitlb, Tlb.without_nodup hdtlb w⟩
  | tlbAll _ => exact ⟨hc1, httb, List.nodup_nil, List.nodup_nil⟩
  | tlbEntry => exact ⟨hc1, httb, Tlb.without_nodup hitlb w, Tlb.without_nodup hdtlb w⟩

/-- Every access keeps CP15 canonical: a read changes at most a ghost. -/
theorem AccessDone.canonical {i : Instr} {s t : State} (h : AccessDone i s t) (hs : s.cp15.Canonical s.cfg) :
    t.cp15.Canonical s.cfg := by
  cases h with
  | read v => rwa [State.deliver_cp15]
  | drawn r held h => rw [State.deliverDrawn_cp15]; exact hs
  | write c h => exact h.canonical hs

/-- Every step of the memory system agent keeps CP15 canonical. -/
theorem MemDone.canonical {s t : State} (h : MemDone s t) (hs : s.cp15.Canonical s.cfg) :
    t.cp15.Canonical s.cfg := by
  cases h with
  | record side k code domain address hm hc => exact hs.recordPair side _ _
  | unchanged => exact hs
  | fill side e hm => exact hs.withTlb side fun _ ht => Tlb.add_nodup ht e
  | drop side e => exact hs.withTlb side fun _ ht => Tlb.remove_nodup ht e
  | settle control keep => exact hs

/-- Settles O50, part by part of a step: none writes memory, the program counter stays or advances by a word, and CP15
stays canonical. -/
theorem stepKeepsTheInvariant : Obligations.StepKeepsTheInvariant := by
  intro s t hs h
  refine step_keeps (P := State.Inv) (fun _ _ _ _ => id) ?_ ?_ ?_ h hs
  · rintro i u v hp hd ⟨hmem, hpc, hcp⟩
    obtain ⟨ecfg, emem, epc⟩ := hd.frame hp.rd
    rw [State.inv_iff, ecfg, emem, epc]
    exact ⟨hmem, aligned_add_four hpc, hd.canonical hcp⟩
  · rintro u ⟨hmem, hpc, hcp⟩
    exact ⟨hmem, aligned_add_four hpc, hcp⟩
  · rintro u v hd ⟨hmem, hpc, hcp⟩
    obtain ⟨ecfg, emem, epc⟩ := hd.frame
    rw [State.inv_iff, ecfg, emem, epc]
    exact ⟨hmem, hpc, hd.canonical hcp⟩

/-! ### The domain fields in use (R60) -/

/-- A word without a reserved field has none in any domain. -/
theorem domainField_ne_reserved {d : Word} (h : hasReservedDomain d = false) (n : BitVec 4) :
    domainField d n ≠ 0b10 := by
  intro hn
  rw [← Bool.not_eq_true, hasReservedDomain_iff] at h
  exact h ⟨n.toNat, n.isLt, hn⟩

/-- Where no domain field in use is reserved, the reserved value governs no domain. -/
theorem State.DomainsInUse.domainMayGovern_reserved {s : State} (h : s.DomainsInUse) (n : BitVec 4) :
    s.domainMayGovern n 0b10 = false := by
  simp only [State.domainMayGovern, List.any_eq_false, beq_iff_eq]
  exact fun d hd => domainField_ne_reserved (h d hd) n

/-- The domain words in use after a write are those before it, and the word written where register 3 is written, which
has no reserved field (R153). -/
theorem WrittenTo.domainsInUse {s : State} {w : Word} {c : Cp15} (h : WrittenTo s w c) (hs : s.DomainsInUse) :
    ∀ d ∈ c.dacr :: c.window.dacr, hasReservedDomain d = false := by
  cases h with
  | dacr hw => exact List.forall_mem_cons.mpr ⟨hw, hs⟩
  | control _ | ttb _ | vbase _ | pid _ | itlbAll _ | itlbEntry | dtlbAll _ | dtlbEntry | tlbAll _ | tlbEntry =>
    exact hs

theorem AccessDone.domainsInUse {i : Instr} {s t : State} (h : AccessDone i s t) (hs : s.DomainsInUse) :
    t.DomainsInUse := by
  cases h with
  | read v => rwa [State.DomainsInUse, State.deliver_cp15]
  | drawn r held h => rw [State.DomainsInUse, State.deliverDrawn_cp15]; exact hs
  | write c h => exact h.domainsInUse hs

/-- Settling a window keeps of its domain words the most recent ones, or all. -/
theorem Window.settle_dacr_subset (w : Window) (control : Control) (keep : Nat) :
    (w.settle control keep).dacr ⊆ w.dacr := by
  cases control with
  | dacr => exact List.take_subset keep w.dacr
  | c1 | ttb | vbase | pid | itlb | dtlb => exact List.Subset.refl _

/-- The memory system agent brings no domain word into use. -/
theorem MemDone.domainsInUse {s t : State} (h : MemDone s t) (hs : s.DomainsInUse) : t.DomainsInUse := by
  cases h with
  | unchanged => exact hs
  | record side | fill side | drop side => cases side <;> exact hs
  | settle control keep =>
    exact fun d hd => hs d (List.cons_subset_cons _ (Window.settle_dacr_subset _ control keep) hd)

/-- Where the reserved value governs no domain, no record is refused for one (log entry 21). -/
theorem recordStep_ne_reservedDomain {s : State} (hs : s.DomainsInUse) (side : Side) (k : FaultCause)
    (domain : BitVec 4) (address : Word) :
    recordStep s side k domain address ≠ .refused .reservedDomainAccessed := by
  simp only [recordStep, hs.domainMayGovern_reserved domain, Bool.and_false]
  cases s.cfg.fsrCodes.code k <;> simp

theorem memStep_ne_reservedDomain {s : State} (hs : s.DomainsInUse) (event : MemEvent) :
    memStep event s ≠ .refused .reservedDomainAccessed := by
  cases event with
  | fault side cause others domain address =>
    simp only [memStep, faultStep]
    split
    · simp
    · split
      · simp
      · exact recordStep_ne_reservedDomain hs _ _ _ _
  | fill side e => simp [memStep]
  | drop side e => simp [memStep]
  | settle control keep => simp [memStep]

/-- Settles O52: a write of register 3 is the only part of a step that brings a domain word into use. -/
theorem stepKeepsDomainsUnreserved : Obligations.StepKeepsDomainsUnreserved :=
  ⟨fun _ _ hs h => step_keeps (P := State.DomainsInUse) (fun _ _ _ _ => id) (fun _ _ _ _ hd => hd.domainsInUse)
    (fun _ => id) (fun _ _ hd => hd.domainsInUse) h hs,
    fun _ event hs => memStep_ne_reservedDomain hs event⟩

/-! ### The ghosts (R62, R73, R75) -/

/-- The low half of the word a read of register 1 returns: the control bits by kind, nothing drawn. -/
theorem State.setWidth_drawnWord_control (s : State) :
    (s.drawnWord .c1 s.controlWord).setWidth 16 = s.cfg.controlValue s.cp15.c1 := by
  apply BitVec.eq_of_getLsbD_eq
  intro n hn
  obtain ⟨bit, rfl⟩ := ControlBit.exists_index hn
  rw [BitVec.getLsbD_setWidth, s.getLsbD_drawnWord .c1 _ (reservedMask_c1_bit _ bit), s.getLsbD_controlWord]
  simp [hn]

/-- The control bits as a read sees them have the fixed ones at their fixed values. -/
theorem controlValue_and_not_rwMask (cfg : Config) (held : BitVec 16) :
    cfg.controlValue held &&& ~~~cfg.rwMask = cfg.fixedOnes := by
  rw [Config.controlValue, mergeBits_and_not, Config.fixedOnes_and_not_rwMask]

/-- Bit [8] of a fault status register's word is 0 (R62). -/
theorem Fsr.getLsbD_word_eight (f : Fsr) : f.word.getLsbD 8 = false := by
  rw [Fsr.word, BitVec.getLsbD_append, BitVec.getLsbD_append]
  simp

/-- A word read from a register with a reserved field is one its ghost may be. -/
theorem State.GhostsReadable.set_drawnWord {s : State} (hs : s.GhostsReadable) {r : ReservedReg} {held : Word}
    (h : DrawnRead s r held) :
    State.GhostsReadable { s with
      cp15 := { s.cp15 with lastRead := s.cp15.lastRead.set r (s.drawnWord r held) } } := by
  obtain ⟨hc1, hdfsr, hifsr⟩ := hs
  cases h with
  | control =>
    refine ⟨fun v hv => ?_, hdfsr, hifsr⟩
    cases hv
    rw [s.setWidth_drawnWord_control]
    exact controlValue_and_not_rwMask _ _
  | ttb | pid => exact ⟨hc1, hdfsr, hifsr⟩
  | dfsr =>
    refine ⟨hc1, fun v hv => ?_, hifsr⟩
    cases hv
    rw [s.getLsbD_drawnWord .dfsr _ (reservedMask_dfsr_bit _ (by decide)), Fsr.getLsbD_word_eight]
  | ifsr =>
    refine ⟨hc1, hdfsr, fun v hv => ?_⟩
    cases hv
    rw [s.getLsbD_drawnWord .ifsr _ (reservedMask_ifsr_bit _ (by decide)), Fsr.getLsbD_word_eight]

theorem AccessDone.ghostsReadable {i : Instr} {s t : State} (h : AccessDone i s t) (hs : s.GhostsReadable) :
    t.GhostsReadable := by
  cases h with
  | read v => rwa [State.GhostsReadable, State.deliver_cp15, State.deliver_cfg]
  | drawn r held h =>
    rw [State.GhostsReadable, State.deliverDrawn_cp15, State.deliverDrawn_cfg]
    exact hs.set_drawnWord h
  | write c h => rwa [State.GhostsReadable, State.commit_cp15, State.commit_cfg, h.lastRead_eq]

theorem MemDone.ghostsReadable {s t : State} (h : MemDone s t) (hs : s.GhostsReadable) : t.GhostsReadable := by
  obtain ⟨ecfg, -, -⟩ := h.frame
  rwa [State.GhostsReadable, ecfg, h.lastRead_eq]

/-- Settles O53: a ghost is set only to the word read, whose drawn bits stand outside the control bits and bit [8]. -/
theorem stepKeepsGhostsReadable : Obligations.StepKeepsGhostsReadable := fun _ _ hs h =>
  step_keeps (P := State.GhostsReadable) (fun _ _ _ _ => id) (fun _ _ _ _ hd => hd.ghostsReadable)
    (fun _ => id) (fun _ _ hd => hd.ghostsReadable) h hs

/-! ### The kinds of the control bits (R73) -/

/-- What is seen of a control bit of a kind: the bit held or written where it is `rw`, its fixed value otherwise. -/
def seenAs (kind : BitKind) (bit : Bool) : Bool :=
  match kind with
  | .rw => bit
  | .fixed0 => false
  | .fixed1 => true

theorem seenAs_rwWhen (held : Bool) (otherwise : BitKind) (bit : Bool) :
    seenAs (rwWhen held otherwise) bit = if held then bit else seenAs otherwise bit := by
  cases held <;> rfl

theorem getLsbD_controlValue_eq_seenAs (cfg : Config) (held : BitVec 16) (bit : ControlBit) :
    (cfg.controlValue held).getLsbD bit.index = seenAs (cfg.kind bit) (held.getLsbD bit.index) :=
  cfg.getLsbD_controlValue held bit

/-- R73's table, row by row: what is seen of a bit in terms of the configuration. -/
theorem seenAs_kind (cfg : Config) (row : ControlBit) (bit : Bool) :
    seenAs (cfg.kind row) bit =
      match row with
      | .m => if cfg.memsys = .none then false else bit
      | .a | .s | .r => bit
      | .c => if cfg.hasCache = .none then false else if cfg.cacheCanDisable then bit else true
      | .w => if cfg.hasWb = false then false else if cfg.wbCanDisable then bit else true
      | .p | .d => if cfg.has26Bit then bit else true
      | .l => if cfg.archVersion ≤ 3 then bit else seenAs cfg.lKind bit
      | .b => if cfg.endianSupport = .both then bit else decide (cfg.endianSupport = .bigOnly)
      | .f => seenAs cfg.fKind bit
      | .z => if cfg.hasBranchPred then bit else false
      | .i => if cfg.hasCache ≠ .separate then false else if cfg.icacheCanDisable then bit else true
      | .v => if cfg.hasHivecs then bit else false
      | .pr => if cfg.replSelectable then bit else cfg.replFixedRead
      | .l4 => if 5 ≤ cfg.archVersion then bit else seenAs cfg.l4Kind bit := by
  cases row with
  | a | s | r | f => rfl
  | p | d | z | v => exact seenAs_rwWhen _ _ _
  | m => simp only [Config.kind, seenAs_rwWhen]; cases cfg.memsys <;> rfl
  | c =>
    simp only [Config.kind]
    cases cfg.hasCache with
    | none => rfl
    | unified | separate => exact seenAs_rwWhen _ _ _
  | w =>
    simp only [Config.kind]
    cases cfg.hasWb with
    | false => rfl
    | true => exact seenAs_rwWhen _ _ _
  | i =>
    simp only [Config.kind]
    cases cfg.hasCache with
    | none | unified => rfl
    | separate => exact seenAs_rwWhen _ _ _
  | b => simp only [Config.kind]; cases cfg.endianSupport <;> rfl
  | l | l4 => simp only [Config.kind]; split <;> rfl
  | pr =>
    simp only [Config.kind]
    cases cfg.replSelectable with
    | false => cases cfg.replFixedRead <;> rfl
    | true => rfl

/-- A read of the control register that answers delivers the word drawn around the control bits, and keeps it as the
ghost (R140). -/
theorem readControl_next {cond rd : BitVec 4} {s t : State} (h : exec (.mrcControl cond rd) s = .next t) :
    Passes (.mrcControl cond rd) s ∧ t = s.deliverDrawn .c1 s.controlWord rd ∧
      t.readX rd = s.drawnWord .c1 s.controlWord := by
  obtain ⟨hp, hm⟩ := admitted_next h
  cases hm
  exact ⟨hp, rfl, s.readX_deliverDrawn .c1 s.controlWord hp.rd⟩

/-- What a read of the control register returns of each control bit (R140). -/
theorem readControl_getLsbD {cond rd : BitVec 4} {s t : State} (h : exec (.mrcControl cond rd) s = .next t)
    (bit : ControlBit) :
    (t.readX rd).getLsbD bit.index = seenAs (s.cfg.kind bit) (s.cp15.c1.getLsbD bit.index) := by
  obtain ⟨-, -, hv⟩ := readControl_next h
  rw [hv, s.getLsbD_drawnWord .c1 _ (reservedMask_c1_bit _ bit), s.getLsbD_controlWord,
    getLsbD_controlValue_eq_seenAs]

/-- What the rest of the system sees of each control bit after a write of the control register (R142). -/
theorem writeControl_outputs_getLsbD {cond rd : BitVec 4} {s t : State}
    (h : exec (.mcrControl cond rd) s = .next t) (bit : ControlBit) :
    t.outputs.control.getLsbD bit.index = seenAs (s.cfg.kind bit) ((s.readX rd).getLsbD bit.index) := by
  obtain ⟨-, hm⟩ := admitted_next h
  obtain ⟨-, rfl⟩ := next_of_ite hm
  simp only [State.outputs, State.commit_cfg, State.commit_cp15, getLsbD_controlValue_eq_seenAs,
    Cp15.getLsbD_writeControl]
  cases s.cfg.kind bit <;> rfl

/-- Settles O4: what a read delivers and what the system sees is each bit by its kind, and the kinds are the table's
(`seenAs_kind`). -/
theorem controlBitKindsAreTheTables : Obligations.ControlBitKindsAreTheTables := by
  intro cond rd s t c fixedOr rows
  have rows_of (seen bit : Nat → Bool)
      (h : ∀ row : ControlBit, seen row.index = seenAs (c.kind row) (bit row.index)) : rows seen bit := by
    have row (row : ControlBit) := (h row).trans (seenAs_kind c row _)
    exact ⟨row .m, row .a, row .c, row .w, row .p, row .d, row .l, row .b, row .s, row .r, row .f, row .z, row .i,
      row .v, row .pr, row .l4⟩
  exact ⟨fun h => rows_of _ _ (readControl_getLsbD h), fun h => rows_of _ _ (writeControl_outputs_getLsbD h)⟩

/-! ### The read-modify-write sequence (R75) -/

/-- In a state that admits accesses a write of the control register goes through where its reserved field is admitted. -/
theorem writeControl_of_reservedFieldOk {cond rd : BitVec 4} {s : State} (hs : s.CanAccess) (hrd : rd.toNat < 15)
    (hw : s.reservedFieldOk .c1 (s.readX rd) = true) :
    exec (.mcrControl cond rd) s = .next (s.commit (s.cp15.writeControl s.cfg (s.readX rd))) := by
  obtain ⟨hv, hpriv⟩ := hs
  have hp : Passes (.mcrControl cond rd) s := ⟨hv, hpriv, hrd, admits_of (a := writeOf 1 0 0) (by decide) rfl⟩
  exact (admitted_of_passes hp _).trans (if_pos hw)

/-- Settles O7: the read leaves its word as the ghost, and the word written agrees with it in the reserved field. -/
theorem readModifyWriteOfControlIsAdmitted : Obligations.ReadModifyWriteOfControlIsAdmitted := by
  intro cond rd cond' rd' s t w h hrd' hw
  obtain ⟨hp, ht, hv⟩ := readControl_next h
  rw [hv] at hw
  have hghost : (t.writeX rd' w).cp15.lastRead.get .c1 = some (s.drawnWord .c1 s.controlWord) := by
    rw [State.writeX_cp15, ht, State.deliverDrawn_cp15]
    exact LastRead.get_set_self _ (r := .c1) (by decide) _
  have hok : (t.writeX rd' w).reservedFieldOk .c1 ((t.writeX rd' w).readX rd') = true := by
    rw [State.readX_writeX t hrd', State.reservedFieldOk_iff]
    exact .inr ⟨_, hghost, (reservedMask_c1_field _ _ _).mp hw⟩
  have hcan : (t.writeX rd' w).CanAccess := by
    rw [State.CanAccess, State.writeX_cfg, State.writeX_privileged, ht, State.deliverDrawn_cfg,
      State.deliverDrawn_privileged]
    exact ⟨hp.valid, hp.privileged⟩
  exact ⟨_, writeControl_of_reservedFieldOk hcan hrd' hok⟩

/-! ### The excluded configurations (R25, R32) -/

/-- The configurations that are not admitted. -/
theorem valid_eq_false_iff (cfg : Config) :
    cfg.valid = false ↔
      cfg.midrValue.extractLsb' 12 4 = 0x0 ∨ cfg.midrValue.extractLsb' 12 4 = 0x7 ∨
        (cfg.ctrValue.getLsbD 24 = true ∧ cfg.hasCache ≠ .separate) ∨
        (cfg.ctrValue.getLsbD 24 = false ∧ cfg.hasCache = .separate) := by
  simp only [Config.valid, Config.midrOk, Config.ctrOk, Bool.and_eq_false_iff, bne_eq_false_iff_eq, or_assoc]
  cases cfg.ctrValue.getLsbD 24 <;> cases cfg.hasCache <;> simp

theorem step_of_not_valid {s : State} (h : s.cfg.valid = false) : step s = .refused .configuration := by
  simp [step, h]

/-- Settles O24: both check the configuration before everything. -/
theorem invalidConfigurationIsRefused : Obligations.InvalidConfigurationIsRefused := by
  intro i s h
  have hv : s.cfg.valid = false := (valid_eq_false_iff s.cfg).mpr h
  obtain ⟨meaning, hm⟩ := exec_admitted i s
  exact ⟨step_of_not_valid hv, hm.trans (admitted_configuration hv meaning)⟩

/-! ### The start of a run (R74, R231) -/

/-- CP15 starts canonical under every reset state whose TLBs have no repeats. -/
theorem Cp15.start_canonical (cfg : Config) {reset : Cp15} (hi : reset.itlb.Nodup) (hd : reset.dtlb.Nodup) :
    (Cp15.start cfg reset).Canonical cfg := by
  refine ⟨cfg.controlValue_controlValue _, ?_, hi, hd⟩
  rw [Cp15.start, BitVec.and_assoc, BitVec.and_comm (~~~_), BitVec.and_not_self]
  exact BitVec.and_zero

theorem State.start_inv (cfg : Config) {reset : Cp15} (hi : reset.itlb.Nodup) (hd : reset.dtlb.Nodup) :
    (State.start cfg reset).Inv :=
  ⟨⟨List.Pairwise.nil, fun _ hc => absurd hc List.not_mem_nil⟩, rfl, Cp15.start_canonical cfg hi hd⟩

/-- Settles O51: the model's reset state is the start of a run with empty TLBs. -/
theorem runsStartInTheInvariant : Obligations.RunsStartInTheInvariant :=
  ⟨fun cfg _ hi hd => State.start_inv cfg hi hd, State.start_inv _ List.nodup_nil List.nodup_nil⟩

theorem LastRead.get_nothing (r : ReservedReg) : LastRead.nothing.get r = none := by
  cases r <;> rfl

/-- Register 2 at the start of a run, bit by bit (R74, log entry 25). -/
theorem Cp15.getLsbD_start_ttb (cfg : Config) (reset : Cp15) (n : Nat) :
    (Cp15.start cfg reset).ttb.getLsbD n = (decide (cfg.ttbLowBits ≤ n) && reset.ttb.getLsbD n) := by
  rw [Cp15.start, BitVec.getLsbD_and, BitVec.getLsbD_not]
  by_cases hn : n < 32
  · rw [getLsbD_ttbLowMask cfg hn, ← decide_not, Bool.and_comm]
    simp [hn]
  · simp [BitVec.getLsbD_of_ge _ _ (Nat.le_of_not_lt hn)]

/-- Settles O54: the control bits and the base bits one by one, the rest as it stands in the parameter. -/
theorem runsStartAsTheResetTableSays : Obligations.RunsStartAsTheResetTableSays := by
  intro cfg reset
  exact ⟨rfl, rfl, cfg.getLsbD_controlValue reset.c1, LastRead.get_nothing, Cp15.getLsbD_start_ttb cfg reset,
    rfl, rfl, rfl, rfl, rfl, rfl, rfl, rfl, rfl⟩

end Sys2Proof.Machine
end

section
/-!
PROOFS. Family 20_memory.md: what the memory system agent does to the TLBs and the window (R89, R96), what an access
supersedes (R96), and the frame of every access (R83).
-/
namespace Sys2Proof.Machine

/-! ### Fills and drops (R89) -/

theorem Tlb.mem_add (t : Tlb) (e x : TlbEntry) : x ∈ t.add e ↔ x = e ∨ x ∈ t := by
  unfold Tlb.add
  split
  · next he => exact ⟨.inr, fun h => h.elim (fun hx => hx ▸ he) id⟩
  · exact List.mem_cons

theorem Tlb.mem_remove (t : Tlb) (e x : TlbEntry) : x ∈ t.remove e ↔ x ≠ e ∧ x ∈ t := by
  simp [Tlb.remove, and_comm]

/-- Where there is an MMU and M = 1 may govern, a fill adds its entry. -/
theorem State.fillTlb_of_mayGovern {s : State} (hm : s.cfg.memsys = .mmu) (hg : s.bitMayGovern .m true = true)
    (side : Side) (e : TlbEntry) :
    s.fillTlb side e = { s with cp15 := s.cp15.withTlb side ((s.cp15.tlb side).add e) } :=
  if_pos ⟨hm, hg⟩

theorem State.fillTlb_of_not {s : State} (h : ¬(s.cfg.memsys = .mmu ∧ s.bitMayGovern .m true = true)) (side : Side)
    (e : TlbEntry) : s.fillTlb side e = s :=
  if_neg h

/-- Settles O38: the condition of a fill is that M = 1 is among the values that may govern. -/
theorem translationsEnterOnlyWhereMMayGovern : Obligations.TranslationsEnterOnlyWhereMMayGovern := by
  intro side e s
  refine ⟨fun hm hg => ⟨_, Tlb.mem_add (s.cp15.tlb side) e, ?_⟩, fun h => ?_⟩
  · have hfill := s.fillTlb_of_mayGovern hm ((s.bitMayGovern_iff .m true).mpr hg) side e
    rw [memStep, hfill]
    cases side <;> rfl
  · refine congrArg _ (State.fillTlb_of_not ?_ side e)
    rintro ⟨hm, hg⟩
    rcases h with h | h
    · exact h hm
    · obtain ⟨c1, hc, hbit⟩ := (s.bitMayGovern_iff .m true).mp hg
      exact Bool.false_ne_true ((h c1 hc).symm.trans hbit)

/-- Settles O39: the entries left are those of `Tlb.mem_remove`. -/
theorem dropRemovesExactlyTheEntry : Obligations.DropRemovesExactlyTheEntry := by
  intro side e s
  refine ⟨_, Tlb.mem_remove (s.cp15.tlb side) e, ?_⟩
  cases side <;> rfl

/-- Settles O40, control by control. -/
theorem settleShrinksOneWindow : Obligations.SettleShrinksOneWindow := by
  intro control keep s
  cases control <;> rfl

/-! ### What an access makes of CP15, by its tuple (R83, R96) -/

/-- What the write of each tuple of 30_encoding.md R118 makes of CP15, given the word in `Rd`: `WrittenTo` says what some
write makes of it, and what the word meets. -/
inductive WrittenAs (s : State) (w : Word) : Access → Cp15 → Prop where
  | control : WrittenAs s w (writeOf 1 0 0) (s.cp15.writeControl s.cfg w)
  | ttb : WrittenAs s w (writeOf 2 0 0) (s.cp15.writeTtb s.cfg w)
  | dacr : WrittenAs s w (writeOf 3 0 0) (s.cp15.writeDacr w)
  | itlbAll : WrittenAs s w (writeOf 8 5 0) (s.cp15.replaceItlb [])
  | itlbEntry : WrittenAs s w (writeOf 8 5 1) (s.cp15.replaceItlb (s.cp15.itlb.without w))
  | dtlbAll : WrittenAs s w (writeOf 8 6 0) (s.cp15.replaceDtlb [])
  | dtlbEntry : WrittenAs s w (writeOf 8 6 1) (s.cp15.replaceDtlb (s.cp15.dtlb.without w))
  | tlbAll : WrittenAs s w (writeOf 8 7 0) ((s.cp15.replaceItlb []).replaceDtlb [])
  | tlbEntry : WrittenAs s w (writeOf 8 7 1)
      ((s.cp15.replaceItlb (s.cp15.itlb.without w)).replaceDtlb (s.cp15.dtlb.without w))
  | vbase : WrittenAs s w (writeOf 12 0 0) (s.cp15.writeVbase w)
  | pid : WrittenAs s w (writeOf 13 0 0) (s.cp15.writePid w)

/-- A write of register 3 that answers a next state has written the word (42_c2_c3_translation.md R153). -/
theorem writeDacr_next {cond rd : BitVec 4} {s t : State} (h : exec (.mcrDacr cond rd) s = .next t) :
    hasReservedDomain (s.readX rd) = false ∧ t = s.commit (s.cp15.writeDacr (s.readX rd)) := by
  obtain ⟨-, hm⟩ := admitted_next h
  split at hm
  · cases hm
  · next hw => cases hm; exact ⟨Bool.eq_false_iff.mpr hw, rfl⟩

/-- An access that answers is a read that leaves CP15 alone but for the ghosts, or the write of its tuple. -/
theorem exec_next_by_access {i : Instr} {s t : State} (h : exec i s = .next t) :
    (i.access.isRead = true ∧ t.cp15 = { s.cp15 with lastRead := t.cp15.lastRead }) ∨
      ∃ c, WrittenAs s (s.readX i.rd) i.access c ∧ t = s.commit c := by
  cases i with
  | mrcMainId cond rd | mrcCacheType cond rd | mrcDacr cond rd | mrcDfar cond rd | mrcIfar cond rd =>
    obtain ⟨-, hm⟩ := admitted_next h
    cases hm
    exact .inl ⟨rfl, by rw [State.deliver_cp15]⟩
  | mrcControl cond rd | mrcTtb cond rd | mrcDfsr cond rd | mrcIfsr cond rd | mrcPid cond rd =>
    obtain ⟨-, hm⟩ := admitted_next h
    cases hm
    exact .inl ⟨rfl, by rw [State.deliverDrawn_cp15]⟩
  | mcrControl cond rd => exact .inr ⟨_, .control, (next_of_ite (admitted_next h).2).2⟩
  | mcrTtb cond rd => exact .inr ⟨_, .ttb, (next_of_ite (admitted_next h).2).2⟩
  | mcrVbase cond rd => exact .inr ⟨_, .vbase, (next_of_ite (admitted_next h).2).2⟩
  | mcrPid cond rd => exact .inr ⟨_, .pid, (next_of_ite (admitted_next h).2).2⟩
  | mcrDacr cond rd => exact .inr ⟨_, .dacr, (writeDacr_next h).2⟩
  | mcrItlbAll cond rd => exact .inr ⟨_, .itlbAll, (wholeTlb_next (admitted_next h).2).2⟩
  | mcrDtlbAll cond rd => exact .inr ⟨_, .dtlbAll, (wholeTlb_next (admitted_next h).2).2⟩
  | mcrTlbAll cond rd => exact .inr ⟨_, .tlbAll, (wholeTlb_next (admitted_next h).2).2⟩
  | mcrItlbEntry cond rd => obtain ⟨-, hm⟩ := admitted_next h; cases hm; exact .inr ⟨_, .itlbEntry, rfl⟩
  | mcrDtlbEntry cond rd => obtain ⟨-, hm⟩ := admitted_next h; cases hm; exact .inr ⟨_, .dtlbEntry, rfl⟩
  | mcrTlbEntry cond rd => obtain ⟨-, hm⟩ := admitted_next h; cases hm; exact .inr ⟨_, .tlbEntry, rfl⟩
  | otherAccess cond isRead op1 crn rd op2 crm => obtain ⟨-, hm⟩ := admitted_next h; cases hm

theorem WrittenAs.isRead_eq_false {s : State} {w : Word} {a : Access} {c : Cp15} (h : WrittenAs s w a c) :
    a.isRead = false := by
  cases h <;> rfl

/-- The window after an access of the tuple: the value its control had is put in front of that control's list. -/
def Cp15.windowAfter (c : Cp15) (a : Access) : Window where
  c1 := if a = writeOf 1 0 0 then c.c1 :: c.window.c1 else c.window.c1
  ttb := if a = writeOf 2 0 0 then c.ttb :: c.window.ttb else c.window.ttb
  dacr := if a = writeOf 3 0 0 then c.dacr :: c.window.dacr else c.window.dacr
  vbase := if a = writeOf 12 0 0 then c.vbase :: c.window.vbase else c.window.vbase
  pid := if a = writeOf 13 0 0 then c.pid :: c.window.pid else c.window.pid
  itlb := if a.crn = 8 ∧ (a.crm = 5 ∨ a.crm = 7) then c.itlb :: c.window.itlb else c.window.itlb
  dtlb := if a.crn = 8 ∧ (a.crm = 6 ∨ a.crm = 7) then c.dtlb :: c.window.dtlb else c.window.dtlb

theorem WrittenAs.window_eq {s : State} {w : Word} {a : Access} {c : Cp15} (h : WrittenAs s w a c) :
    c.window = s.cp15.windowAfter a := by
  cases h <;> rfl

/-- No row of 30_encoding.md R118 reads register 8. -/
theorem Access.crn_ne_eight_of_read {a : Access} (hl : a.isListed = true) (hr : a.isRead = true) : a.crn ≠ 8 := by
  have rows : ∀ row ∈ admittedRows, row.1.isRead = true → row.1.crn ≠ 8 := by decide
  obtain ⟨row, hmem, hrow⟩ := List.any_eq_true.mp hl
  obtain rfl := eq_of_beq hrow
  exact rows row hmem hr

/-- A listed read supersedes nothing. -/
theorem Cp15.windowAfter_of_read (c : Cp15) {a : Access} (hl : a.isListed = true) (hr : a.isRead = true) :
    c.windowAfter a = c.window := by
  have hcrn : ¬a.crn = 8#4 := Access.crn_ne_eight_of_read hl hr
  have hwrite (crn crm : BitVec 4) (op2 : BitVec 3) : a ≠ writeOf crn crm op2 := by
    rintro rfl
    cases hr
  simp [Cp15.windowAfter, hwrite, hcrn]

/-- The window after every access that answers a next state. -/
theorem exec_window {i : Instr} {s t : State} (h : exec i s = .next t) :
    t.cp15.window = s.cp15.windowAfter i.access := by
  rcases exec_next_by_access h with ⟨hread, hcp⟩ | ⟨c, hw, rfl⟩
  · have hl : i.access.isListed = true := (Bool.and_eq_true_iff.mp (exec_next h).1.admits).1
    rw [hcp, s.cp15.windowAfter_of_read hl hread]
  · exact hw.window_eq

/-- Settles O41: a read supersedes nothing, and a write what its tuple names (`exec_window`). -/
theorem writesSupersedeOneValueOfTheirControl : Obligations.WritesSupersedeOneValueOfTheirControl :=
  fun _ _ _ h => exec_window h

/-! ### Which values may govern (R96) -/

theorem State.domainMayGovern_iff (s : State) (n : BitVec 4) (v : BitVec 2) :
    s.domainMayGovern n v = true ↔ ∃ d ∈ s.cp15.dacr :: s.cp15.window.dacr, domainField d n = v := by
  simp [State.domainMayGovern]

/-- With the value `s` held put in front of the window, the values that might govern in `s` may, and the one held. -/
theorem State.bitMayGovern_of_superseded {s t : State} (hcfg : t.cfg = s.cfg)
    (hw : t.cp15.window.c1 = s.cp15.c1 :: s.cp15.window.c1) (bit : ControlBit) (v : Bool) :
    t.bitMayGovern bit v = true ↔ s.bitMayGovern bit v = true ∨ t.controlBit bit = v := by
  rw [State.bitMayGovern_iff, State.bitMayGovern_iff, hw, hcfg, List.exists_mem_cons_iff, ← hcfg, or_comm,
    State.controlBit]

/-- With the window empty the value held governs alone. -/
theorem State.bitMayGovern_of_settled {s : State} (hw : s.cp15.window.c1 = []) (bit : ControlBit) (v : Bool) :
    s.bitMayGovern bit v = true ↔ s.controlBit bit = v := by
  simp [State.bitMayGovern_iff, hw, State.controlBit]

theorem State.domainMayGovern_of_superseded {s t : State}
    (hw : t.cp15.window.dacr = s.cp15.dacr :: s.cp15.window.dacr) (n : BitVec 4) (v : BitVec 2) :
    t.domainMayGovern n v = true ↔ s.domainMayGovern n v = true ∨ domainField t.cp15.dacr n = v := by
  rw [State.domainMayGovern_iff, State.domainMayGovern_iff, hw, List.exists_mem_cons_iff, or_comm]

theorem State.domainMayGovern_of_settled {s : State} (hw : s.cp15.window.dacr = []) (n : BitVec 4) (v : BitVec 2) :
    s.domainMayGovern n v = true ↔ domainField s.cp15.dacr n = v := by
  simp [State.domainMayGovern_iff, hw]

/-- Settles O42: a write puts the old value in the window (`exec_window`), and settling it whole empties it. -/
theorem oldAndNewControlMayGovern : Obligations.OldAndNewControlMayGovern := by
  refine ⟨fun cond rd s t u bit v h => ?_, fun cond rd s t u domain v h => ?_⟩
  · obtain ⟨hp, hd⟩ := exec_next h
    obtain ⟨hcfg, -, -⟩ := hd.frame hp.rd
    refine ⟨State.bitMayGovern_of_superseded hcfg (congrArg Window.c1 (exec_window h)) bit v, fun hu => ?_⟩
    cases hu
    exact State.bitMayGovern_of_settled rfl bit v
  · obtain ⟨-, rfl⟩ := writeDacr_next h
    refine ⟨State.domainMayGovern_of_superseded rfl domain v, fun hu => ?_⟩
    cases hu
    exact State.domainMayGovern_of_settled rfl domain v

/-! ### The frame of every access (R83, 10_state.md R71) -/

/-- Settles O56: a write is not a read. -/
theorem readsChangeOnlyTheGhost : Obligations.ReadsChangeOnlyTheGhost := by
  intro i s t hr h
  rcases exec_next_by_access h with ⟨-, hcp⟩ | ⟨c, hw, -⟩
  · exact hcp
  · exact absurd (hw.isRead_eq_false.symm.trans hr) Bool.false_ne_true

@[simp] theorem State.deliver_condPassed (s : State) (rd : BitVec 4) (v : Word) :
    (s.deliver rd v).condPassed = s.condPassed := s.writeX_condPassed rd v

@[simp] theorem State.deliver_turns (s : State) (rd : BitVec 4) (v : Word) : (s.deliver rd v).turns = s.turns :=
  s.writeX_turns rd v

@[simp] theorem State.deliverDrawn_condPassed (s : State) (r : ReservedReg) (held : Word) (rd : BitVec 4) :
    (s.deliverDrawn r held rd).condPassed = s.condPassed := State.deliver_condPassed _ _ _

@[simp] theorem State.deliverDrawn_turns (s : State) (r : ReservedReg) (held : Word) (rd : BitVec 4) :
    (s.deliverDrawn r held rd).turns = s.turns := State.deliver_turns _ _ _

/-- No access changes the inputs of the core or the turns to come. -/
theorem AccessDone.inputs_eq {i : Instr} {s t : State} (h : AccessDone i s t) :
    t.privileged = s.privileged ∧ t.condPassed = s.condPassed ∧ t.turns = s.turns := by
  cases h with
  | read v => exact ⟨s.deliver_privileged _ _, s.deliver_condPassed _ _, s.deliver_turns _ _⟩
  | drawn r held h =>
    exact ⟨s.deliverDrawn_privileged _ _ _, s.deliverDrawn_condPassed _ _ _, s.deliverDrawn_turns _ _ _⟩
  | write c h => exact ⟨rfl, rfl, rfl⟩

/-- No access changes a register of R0 to R14 but `Rd`. -/
theorem AccessDone.readX_of_ne {i : Instr} {s t : State} (hrd : i.rd.toNat < 15) (h : AccessDone i s t) {j : BitVec 4}
    (hj : j.toNat < 15) (hne : j ≠ i.rd) : t.readX j = s.readX j := by
  cases h with
  | read v => exact s.readX_deliver_of_ne hrd hj hne v
  | drawn r held h => exact s.readX_deliverDrawn_of_ne r held hrd hj hne
  | write c h => exact State.readX_advance _ hj

/-- Settles O57: what every access keeps, and what a write keeps besides. -/
theorem accessesChangeRdOrCp15Only : Obligations.AccessesChangeRdOrCp15Only := by
  intro i s t h
  obtain ⟨hp, hd⟩ := exec_next h
  obtain ⟨hcfg, hmem, hpc⟩ := hd.frame hp.rd
  obtain ⟨hpriv, hcond, hturns⟩ := hd.inputs_eq
  refine ⟨hcfg, hmem, hpriv, hcond, hturns, hpc, fun j hj hne => hd.readX_of_ne hp.rd hj hne, fun hw => ?_⟩
  rcases exec_next_by_access h with ⟨hread, -⟩ | ⟨c, -, rfl⟩
  · exact absurd (hw.symm.trans hread) Bool.false_ne_true
  · rfl

end Sys2Proof.Machine
end

section
/-!
PROOFS. Family 30_encoding.md: the decoder and the encoder are inverse to each other (R113, R117), the step runs what it
decodes (R114, R115), and what the checks before an access refuse (R117, R119, R120, R121).
-/
namespace Sys2Proof

/-! ### Decoding and encoding (R113, R117) -/

/-- A well-formed instruction is the one its operand tuple stands for: R117's lookup loses nothing. -/
theorem Access.instr_access {i : Instr} (h : i.tupleOk = true) : i.access.instr i.cond i.rd = i := by
  cases i with
  | otherAccess cond isRead op1 crn rd op2 crm =>
    rw [Access.instr, find_of_not_isListed (by simpa [Instr.access, Instr.tupleOk] using h)]
    rfl
  | _ => rfl

theorem Instr.wf_iff (i : Instr) : i.wf = true ↔ i.cond ≠ 0b1111 ∧ i.tupleOk = true := by
  simp [Instr.wf, Instr.condOk]

theorem decodeWord_encode {i : Instr} (h : i.wf = true) : decodeWord (encode i) = .ok i := by
  obtain ⟨hcond, htuple⟩ := i.wf_iff.mp h
  obtain ⟨ht, hc, hwc, hwa, hwr⟩ := Laws.EncodedWord.of_assemble i
  refine decodeWord_eq_ok_iff.mpr ⟨ht, hc, ?_, ?_⟩
  · rwa [hwc]
  · rw [hwa, hwc, hwr, Access.instr_access htuple]

/-- Settles O47: the bytes decode as their word does, and the word's fields are the instruction's. -/
theorem decodeOfEncodeIsTheInstruction : Obligations.DecodeOfEncodeIsTheInstruction := by
  intro i order rest h
  rw [encodeBytes, decode_splitBytes, decodeWord_encode h]
  rfl

theorem wf_of_decodeWord {w : Word} {i : Instr} (h : decodeWord w = .ok i) : i.wf = true := by
  obtain ⟨-, -, hcond, rfl⟩ := decodeWord_eq_ok_iff.mp h
  obtain ⟨-, hc, -, htuple⟩ := (wordAccess w).instr_fields (wordCond w) (wordRd w)
  exact (Instr.wf_iff _).mpr ⟨by rwa [hc], htuple⟩

theorem encode_of_decodeWord {w : Word} {i : Instr} (h : decodeWord w = .ok i) : encode i = w := by
  obtain ⟨ht, hcop, -, rfl⟩ := decodeWord_eq_ok_iff.mp h
  obtain ⟨ha, hc, hr, -⟩ := (wordAccess w).instr_fields (wordCond w) (wordRd w)
  rw [encode, ha, hc, hr, assemble_fields w ht hcop]

/-- Settles O48: the instruction carries the word's fields, and the word is made of them. -/
theorem encodeOfDecodeIsTheWord : Obligations.EncodeOfDecodeIsTheWord :=
  fun _ _ h => ⟨wf_of_decodeWord h, encode_of_decodeWord h⟩

theorem isRegisterTransfer_iff (w : Word) :
    isRegisterTransfer w = true ↔ w.extractLsb' 24 4 = 0b1110#4 ∧ w.getLsbD 4 = true := by
  simp [isRegisterTransfer]

/-- Settles O49: past the decoder's three checks every tuple has an instruction. -/
theorem exactlyTheP15TransfersDecode : Obligations.ExactlyTheP15TransfersDecode := by
  intro w
  simp only [decodeWord_eq_ok_iff, isRegisterTransfer_iff, and_assoc]
  constructor
  · rintro ⟨-, h24, h4, h8, h28, -⟩
    exact ⟨h24, h4, h8, h28⟩
  · rintro ⟨h24, h4, h8, h28⟩
    exact ⟨_, h24, h4, h8, h28, rfl⟩

/-- Row 1's word under any condition (R118). -/
theorem encode_mrcMainId_r0 (cond : BitVec 4) : encode (.mrcMainId cond 0) = cond ++ 0xE100F10#28 := by
  revert cond; decide

/-- Settles O46: the words written out are decoded one by one; row 1's is the encoding under each condition. -/
theorem specWordsDecode : Obligations.SpecWordsDecode := by
  have row1 (cond : BitVec 4) (h : cond ≠ 0b1111) : decodeWord (cond ++ 0xE100F10#28) = .ok (.mrcMainId cond 0) := by
    rw [← encode_mrcMainId_r0]
    exact decodeWord_encode ((Instr.wf_iff _).mpr ⟨h, rfl⟩)
  refine ⟨?_, ?_, ?_, ?_, ?_, ?_, ?_, ?_, ?_, ?_, ?_, ?_, ?_, ?_, ?_, ?_, ?_, ?_, ?_, ?_, ?_, ?_, ?_, ?_, ?_, ?_, ?_, ?_,
    ?_, ?_, row1⟩ <;> decide

/-- The table's bits decode as their word does. -/
theorem decodeTableWord_eq_some_iff {nbits w : Nat} {i : Instr} :
    decodeTableWord nbits w = some i ↔ decodeWord (tableWord nbits w) = .ok i := by
  have hd := decode_splitBytes .little (tableWord nbits w) []
  rw [List.append_nil] at hd
  rw [decodeTableWord, hd]
  cases decodeWord (tableWord nbits w) <;> simp [Except.map]

end Sys2Proof

namespace Sys2Proof.Machine

/-! ### The step (R114, R115, log entries 7 to 9) -/

/-- R115: the core's step on a word that decodes. -/
theorem coreStep_of_decode_ok {s : State} {bytes rest : List Byte} {i : Instr}
    (hf : fetchBytes s.mem s.pc = .ok bytes) (hd : decode s.cfg.fetchOrder bytes = .ok (i, rest)) :
    coreStep s = if i.cond = 0b1110 ∨ s.condPassed = true then exec i s else .next s.advance := by
  simp [coreStep, hf, hd, executes, condAlways]

theorem step_of_no_turn {s : State} (hv : s.cfg.valid = true) (ht : s.turns = []) : step s = coreStep s := by
  simp [step, hv, ht]

theorem step_of_core_turn {s : State} {p c : Bool} {later : List Turn} (hv : s.cfg.valid = true)
    (ht : s.turns = .core p c :: later) :
    step s = coreStep (({ s with turns := later } : State).withInputs p c) := by
  simp [step, hv, ht]

theorem step_of_memSystem_turn {s : State} {event : MemEvent} {later : List Turn} (hv : s.cfg.valid = true)
    (ht : s.turns = .memSystem event :: later) : step s = memStep event { s with turns := later } := by
  simp [step, hv, ht]

/-- Settles O43: `coreStep_of_decode_ok` in the state in which the turn acts. -/
theorem stepRunsTheDecodedInstruction : Obligations.StepRunsTheDecodedInstruction := by
  refine ⟨fun s bytes rest i hv hf hd => ⟨fun ht => ?_, fun p c later ht => ?_⟩,
    fun s event later hv ht => step_of_memSystem_turn hv ht⟩
  · exact (step_of_no_turn hv ht).trans (coreStep_of_decode_ok hf hd)
  · exact (step_of_core_turn hv ht).trans (coreStep_of_decode_ok hf hd)

/-- The listing of a word gives the next turn to the core, with its condition passing (log entry 29). -/
theorem step_withFetchWord {s : State} (nbits w : Nat) (hv : s.cfg.valid = true) :
    step (s.withFetchWord nbits w) = coreStep { s.placeWord (tableWord nbits w) with condPassed := true } :=
  step_of_core_turn (s := s.withFetchWord nbits w) hv rfl

/-- Settles O45: the placed bytes are fetched, they decode to the instruction, and its condition passes. -/
theorem placedWordIsRunNext : Obligations.PlacedWordIsRunNext := by
  intro s nbits w i hv hpc hi
  have hw : decodeWord (tableWord nbits w) = .ok i := decodeTableWord_eq_some_iff.mp hi
  have hd : decode s.cfg.fetchOrder (splitBytes s.cfg.fetchOrder (tableWord nbits w)) = .ok (i, []) := by
    rw [← List.append_nil (splitBytes _ _), decode_splitBytes, hw]
    rfl
  have hf := fetchBytes_writeBytes s.mem s.cfg.fetchOrder (tableWord nbits w) hpc
  rw [step_withFetchWord nbits w hv, encodeBytes, encode_of_decodeWord hw]
  exact (coreStep_of_decode_ok (s := { s.placeWord (tableWord nbits w) with condPassed := true }) hf hd).trans
    (if_pos (.inr rfl))

/-! ### What the checks before an access refuse (R117 to R121) -/

/-- Settles O23: every access makes the checks first. -/
theorem accessWithR15IsRefused : Obligations.AccessWithR15IsRefused := by
  intro i s ⟨hv, hp⟩ hr
  obtain ⟨meaning, hm⟩ := exec_admitted i s
  exact hm.trans (admitted_rdIsR15 hv hp hr meaning)

/-- An access that is not admitted is refused for the reason of `refusalOf` (R117). -/
theorem exec_of_not_admits {i : Instr} {s : State} (hs : s.CanAccess) (hr : i.rd ≠ 15)
    (ha : admits s.cfg i.access = false) : exec i s = .refused (refusalOf s.cfg i.access) := by
  obtain ⟨hv, hp⟩ := hs
  obtain ⟨meaning, hm⟩ := exec_admitted i s
  exact hm.trans (admitted_refused hv hp hr ha meaning)

/-- A rule about whole registers refuses every form of the register (R190 to R193). -/
def ClaimedWhole (cfg : Config) (crn : BitVec 4) : Prop :=
  isReservedRegister cfg crn = true ∨ isFormWithoutMmu cfg crn = true ∨ (crn = 7 ∨ crn = 9 ∨ crn = 10) ∨ crn = 15

/-- The tuple is one of the forms that are refused by a rule of their own (R132, R133, R164, R183). -/
def IsNamedForm (a : Access) : Prop :=
  isReservedOpcode2 a = true ∨ isWriteOfRegister0 a = true ∨ isWriteOfFaultRegister a = true ∨
    isReadOfRegister12 a = true

/-- R119, R194: a tuple that no other rule names is refused for want of a meaning (log entry 30). -/
theorem refusalOf_eq_accessWithoutMeaning {cfg : Config} {a : Access} (hw : ¬ ClaimedWhole cfg a.crn)
    (hf : ¬ IsNamedForm a) : refusalOf cfg a = .accessWithoutMeaning := by
  rw [refusalOf, if_neg fun h => hw (.inl h), if_neg fun h => hw (.inr (.inl h)),
    if_neg fun h => hw (.inr (.inr (.inl h))), if_neg fun h => hw (.inr (.inr (.inr h))),
    if_neg fun h => hf (.inl h), if_neg fun h => hf (.inr (.inl h)), if_neg fun h => hf (.inr (.inr (.inl h))),
    if_neg fun h => hf (.inr (.inr (.inr h)))]

/-- The registers that a system has, and register 13 in every system, are claimed by no rule about whole registers. -/
theorem not_claimedWhole {cfg : Config} {crn : BitVec 4}
    (h : crn = 0 ∨ crn = 1 ∨ crn = 13 ∨ (crn = 12 ∧ cfg.hasVbar = true) ∨
      ((crn = 2 ∨ crn = 3 ∨ crn = 5 ∨ crn = 6 ∨ crn = 8) ∧ cfg.memsys = .mmu)) : ¬ ClaimedWhole cfg crn := by
  unfold ClaimedWhole isReservedRegister isFormWithoutMmu
  rcases h with rfl | rfl | rfl | ⟨rfl, hv⟩ | ⟨rfl | rfl | rfl | rfl | rfl, hm⟩
  · simp
  · simp
  · simp
  · simp [hv]
  all_goals simp [hm]

/-- The named forms of R132, R133, R164 and R183 have `op1` = 0 and belong to registers 0, 5, 6 and 12. -/
theorem IsNamedForm.op1_crn {a : Access} (h : IsNamedForm a) :
    a.op1 = 0 ∧ (a.crn = 0 ∨ a.crn = 5 ∨ a.crn = 6 ∨ a.crn = 12) := by
  rcases h with h | h | h | h
  · simp only [isReservedOpcode2, Bool.and_eq_true, beq_iff_eq] at h
    obtain ⟨⟨⟨⟨-, hop⟩, hcrn⟩, -⟩, -⟩ := h
    exact ⟨hop, .inl hcrn⟩
  · simp only [isWriteOfRegister0, Bool.and_eq_true, beq_iff_eq] at h
    obtain ⟨⟨-, hop⟩, hcrn⟩ := h
    exact ⟨hop, .inl hcrn⟩
  · simp only [isWriteOfFaultRegister, Bool.and_eq_true, Bool.or_eq_true, beq_iff_eq] at h
    obtain ⟨⟨⟨-, hop⟩, -⟩, ⟨hcrn, -⟩ | ⟨hcrn, -⟩⟩ := h
    · exact ⟨hop, .inr (.inl hcrn)⟩
    · exact ⟨hop, .inr (.inr (.inl hcrn))⟩
  · rw [eq_of_beq h]
    exact ⟨rfl, .inr (.inr (.inr rfl))⟩

/-- Every row of R118 has `op1` = 0 (R121). -/
theorem Access.op1_of_isListed {a : Access} (h : a.isListed = true) : a.op1 = 0 := by
  obtain ⟨r, hr, rfl, -⟩ := find_of_isListed h
  have all : ∀ r ∈ admittedRows, r.1.op1 = 0 := by decide
  exact all r hr

/-- R121: a non-zero `op1` is admitted in no configuration. -/
theorem admits_of_op1_ne_zero {a : Access} (h : a.op1 ≠ 0) (cfg : Config) : admits cfg a = false := by
  rw [admits, Bool.eq_false_iff.mpr fun hl => h (Access.op1_of_isListed hl)]
  rfl

/-- Settles O32: no row lists the tuple, and no rule about whole registers or single forms names it. -/
theorem nonzeroOp1IsRefused : Obligations.NonzeroOp1IsRefused := by
  intro cond isRead op1 crn rd op2 crm s hs hr hop hreg
  have hexec := exec_of_not_admits (i := .otherAccess cond isRead op1 crn rd op2 crm) hs hr
    (admits_of_op1_ne_zero hop s.cfg)
  rw [hexec, refusalOf_eq_accessWithoutMeaning (not_claimedWhole hreg) fun hf => hop hf.op1_crn.1]

/-- The catch-all row answers no next state (R119): even its meaning is a refusal. -/
theorem otherAccess_ne_next (cond : BitVec 4) (isRead : Bool) (op1 : BitVec 3) (crn rd : BitVec 4) (op2 : BitVec 3)
    (crm : BitVec 4) (s t : State) : exec (.otherAccess cond isRead op1 crn rd op2 crm) s ≠ .next t := by
  intro h
  obtain ⟨-, hm⟩ := admitted_next h
  cases hm

/-- With privilege and `Rd` not R15 the catch-all row is refused (R119), admitted or not. -/
theorem otherAccess_refused (cond : BitVec 4) (isRead : Bool) (op1 : BitVec 3) (crn : BitVec 4) {rd : BitVec 4}
    (op2 : BitVec 3) (crm : BitVec 4) {s : State} (hs : s.CanAccess) (hr : rd ≠ 15) :
    ∃ reason, exec (.otherAccess cond isRead op1 crn rd op2 crm) s = .refused reason := by
  cases ha : admits s.cfg ⟨isRead, op1, crn, crm, op2⟩ with
  | false => exact ⟨_, exec_of_not_admits hs hr ha⟩
  | true =>
    have hp : Passes (.otherAccess cond isRead op1 crn rd op2 crm) s := ⟨hs.1, hs.2, rd_lt_of_ne hr, ha⟩
    exact ⟨_, admitted_of_passes hp _⟩

/-- R117: rows 20 and 21 need `HAS_PID`. -/
theorem admits_register13 {cfg : Config} {a : Access} (hc : a.crn = 13) (hp : cfg.hasPid = false) :
    admits cfg a = false := by
  simp [admits, registerPresent, hc, hp]

/-- Settles O31: the catch-all row by its two cases; register 13 by the name R119 gives its refusal. -/
theorem unlistedAccessesAreRefused : Obligations.UnlistedAccessesAreRefused := by
  refine ⟨fun cond isRead op1 crn rd op2 crm s => ⟨?_, ?_⟩, fun i s hs hr hp hc => ?_⟩
  · exact otherAccess_ne_next cond isRead op1 crn rd op2 crm s
  · exact fun hs hr => otherAccess_refused cond isRead op1 crn op2 crm hs hr
  · have hform : ¬ IsNamedForm i.access := fun hf => by simpa [hc] using hf.op1_crn.2
    rw [exec_of_not_admits hs hr (admits_register13 hc hp),
      refusalOf_eq_accessWithoutMeaning (not_claimedWhole (.inr (.inr (.inl hc)))) hform]

end Sys2Proof.Machine
end

section
/-!
PROOFS. Family 40_c0_id.md: what the reads of register 0 deliver (R130, R131), and the forms refused by a rule of their
own: the reserved values of opcode2 (R132), the writes of register 0 (R133) and of the fault registers (R164), the read
of register 12 (R183).
-/
namespace Sys2Proof.Machine

/-! ### The reads that draw nothing -/

/-- A read without a reserved field, past the checks: the word goes to `Rd`, and nothing else but the program counter
changes. -/
theorem admitted_deliver {i : Instr} {s : State} (h : Passes i s) (v : Word) :
    admitted i s (.next (s.deliver i.rd v)) =
      .next { s with regs := s.regs.set i.rd.toNat v h.rd, pc := s.pc + 4 } := by
  rw [admitted_of_passes h, State.deliver_eq s h.rd]

/-- Register 0 exists under every configuration (R117), so its two reads pass the checks where accesses do. -/
theorem passes_of_register0 {i : Instr} {s : State} (hs : s.CanAccess) (hr : i.rd.toNat < 15)
    (hl : i.access.isListed = true) (hc : i.access.crn = 0) : Passes i s := by
  obtain ⟨hv, hp⟩ := hs
  exact ⟨hv, hp, hr, admits_of hl (if_pos (.inl hc))⟩

/-- Settles O1: the checks pass, and the meaning delivers MIDR_VALUE. -/
theorem readMainIdMovesTheConstant : Obligations.ReadMainIdMovesTheConstant := by
  intro cond rd s hr hs
  have hl : (readOf 0 0 0).isListed = true := by decide
  have hp : Passes (.mrcMainId cond rd) s := passes_of_register0 hs hr hl rfl
  exact admitted_deliver hp s.cfg.midrValue

/-- Settles O2: the checks pass, and the meaning delivers CTR_VALUE. -/
theorem readCacheTypeMovesTheConstant : Obligations.ReadCacheTypeMovesTheConstant := by
  intro cond rd s hr hs
  have hl : (readOf 0 0 1).isListed = true := by decide
  have hp : Passes (.mrcCacheType cond rd) s := passes_of_register0 hs hr hl rfl
  exact admitted_deliver hp s.cfg.ctrValue

/-! ### The forms refused by a rule of their own (R132, R133, R164, R183) -/

/-- The part of `refusalOf` that looks at the form alone: what is left once no rule about whole registers applies. -/
def formRefusal (a : Access) : Refusal :=
  if isReservedOpcode2 a then .reservedOpcode2
  else if isWriteOfRegister0 a then .writeOfRegister0
  else if isWriteOfFaultRegister a then .writeOfFaultRegister
  else if isReadOfRegister12 a then .readOfRegister12
  else .accessWithoutMeaning

theorem refusalOf_eq_formRefusal {cfg : Config} {a : Access} (hw : ¬ ClaimedWhole cfg a.crn) :
    refusalOf cfg a = formRefusal a := by
  rw [refusalOf, if_neg fun h => hw (.inl h), if_neg fun h => hw (.inr (.inl h)),
    if_neg fun h => hw (.inr (.inr (.inl h))), if_neg fun h => hw (.inr (.inr (.inr h))), formRefusal]

/-- A tuple without a row of R118 is admitted by no configuration. -/
theorem admits_of_not_isListed {a : Access} (hl : a.isListed = false) (cfg : Config) : admits cfg a = false := by
  rw [admits, hl]; rfl

/-- An unlisted form of a register that no rule about whole registers claims is refused by the rule about its form. -/
theorem exec_of_not_isListed {i : Instr} {s : State} (hs : s.CanAccess) (hr : i.rd ≠ 15)
    (hl : i.access.isListed = false) (hw : ¬ ClaimedWhole s.cfg i.access.crn) :
    exec i s = .refused (formRefusal i.access) := by
  rw [exec_of_not_admits hs hr (admits_of_not_isListed hl s.cfg), refusalOf_eq_formRefusal hw]

/-- R118 lists two forms of register 0: the reads with `CRm` 0 and opcode2 0 or 1. -/
theorem Access.eq_of_isListed_register0 {a : Access} (hl : a.isListed = true) (hc : a.crn = 0) :
    a = readOf 0 0 0 ∨ a = readOf 0 0 1 := by
  obtain ⟨r, hr, rfl, -⟩ := find_of_isListed hl
  have rows : ∀ r ∈ admittedRows, r.1.crn = 0 → r.1 = readOf 0 0 0 ∨ r.1 = readOf 0 0 1 := by decide
  exact rows r hr hc

/-- A form of register 0 that is neither of its two reads is refused by the rule about it. -/
theorem exec_register0_unlisted {i : Instr} {s : State} (hs : s.CanAccess) (hr : i.rd ≠ 15) (hc : i.access.crn = 0)
    (h0 : i.access ≠ readOf 0 0 0) (h1 : i.access ≠ readOf 0 0 1) : exec i s = .refused (formRefusal i.access) := by
  have hl : i.access.isListed = false := Bool.eq_false_iff.mpr fun hl =>
    (Access.eq_of_isListed_register0 hl hc).elim h0 h1
  exact exec_of_not_isListed hs hr hl (not_claimedWhole (.inl hc))

theorem formRefusal_reservedOpcode2 {op2 : BitVec 3} (h : 2 ≤ op2.toNat) :
    formRefusal (readOf 0 0 op2) = .reservedOpcode2 := by
  have h0 : op2 ≠ 0 := fun e => by subst e; exact absurd h (by decide)
  have h1 : op2 ≠ 1 := fun e => by subst e; exact absurd h (by decide)
  have hres : isReservedOpcode2 (readOf 0 0 op2) = true := by simpa [isReservedOpcode2, readOf] using ⟨h0, h1⟩
  exact if_pos hres

/-- No rule names a read of register 0 with another `CRm`; R132 refers it to R119. -/
theorem formRefusal_register0_crm {crm : BitVec 4} (h : crm ≠ 0) (op2 : BitVec 3) :
    formRefusal (readOf 0 crm op2) = .accessWithoutMeaning := by
  have hres : isReservedOpcode2 (readOf 0 crm op2) = false := by
    simp [isReservedOpcode2, readOf, show ¬ crm = 0#4 from h]
  have h12 : isReadOfRegister12 (readOf 0 crm op2) = false := by simp [isReadOfRegister12, readOf]
  have h0 : isWriteOfRegister0 (readOf 0 crm op2) = false := rfl
  have hfault : isWriteOfFaultRegister (readOf 0 crm op2) = false := rfl
  simp only [formRefusal, hres, h0, hfault, h12, Bool.false_eq_true, if_false]

/-- Settles O29: none of these reads is the main ID's or the cache type's, and the form gives the reason. -/
theorem reservedOpcode2OfRegister0IsRefused : Obligations.ReservedOpcode2OfRegister0IsRefused := by
  intro cond rd crm op2 s hs hr
  constructor
  · intro h
    rw [exec_register0_unlisted (i := .otherAccess cond true 0 0 rd op2 0) hs hr rfl]
    · exact congrArg _ (formRefusal_reservedOpcode2 h)
    all_goals rintro ⟨⟩; exact absurd h (by decide)
  · intro h
    rw [exec_register0_unlisted (i := .otherAccess cond true 0 0 rd op2 crm) hs hr rfl]
    · exact congrArg _ (formRefusal_register0_crm h op2)
    all_goals rintro ⟨⟩; exact h rfl

/-- Settles O30: a write of register 0 is neither of its two reads; the other five forms are unlisted, and where the
system has their register no rule about whole registers claims it. -/
theorem formsNotShownAreRefused : Obligations.FormsNotShownAreRefused := by
  intro cond rd crm op2 s hs hr
  refine ⟨?_, fun hm => ?_, fun hv => ?_⟩
  · exact exec_register0_unlisted (i := .otherAccess cond false 0 0 rd op2 crm) hs hr rfl nofun nofun
  · have hw5 : ¬ ClaimedWhole s.cfg 5 := not_claimedWhole (by simp [hm])
    have hw6 : ¬ ClaimedWhole s.cfg 6 := not_claimedWhole (by simp [hm])
    have write5 (op2 : BitVec 3) (hl : (writeOf 5 0 op2).isListed = false) :=
      exec_of_not_isListed (i := .otherAccess cond false 0 5 rd op2 0) hs hr hl hw5
    have write6 (op2 : BitVec 3) (hl : (writeOf 6 0 op2).isListed = false) :=
      exec_of_not_isListed (i := .otherAccess cond false 0 6 rd op2 0) hs hr hl hw6
    exact ⟨write5 0 (by decide), write5 1 (by decide), write6 0 (by decide), write6 2 (by decide)⟩
  · have hl : (readOf 12 0 0).isListed = false := by decide
    have hw : ¬ ClaimedWhole s.cfg 12 := not_claimedWhole (by simp [hv])
    exact exec_of_not_isListed (i := .otherAccess cond true 0 12 rd 0 0) hs hr hl hw

end Sys2Proof.Machine
end

section
/-!
PROOFS. Family 41_c1_control.md: what a read of the control register delivers (R140), what a write of it does (R141),
what the rest of the system sees of it (R142), and which write changes which register.
-/
namespace Sys2Proof.Machine

/-! ### The read (R140) -/

/-- A listed access whose register the system has passes the checks where accesses do (30_encoding.md R117). -/
theorem passes_of_listed {i : Instr} {s : State} (hs : s.CanAccess) (hr : i.rd.toNat < 15)
    (hl : i.access.isListed = true) (hpresent : registerPresent s.cfg i.access.crn = true) : Passes i s := by
  obtain ⟨hv, hp⟩ := hs
  exact ⟨hv, hp, hr, admits_of hl hpresent⟩

/-- Settles O3: the checks pass, and the word delivered is the one drawn around the control bits
(`readControl_next`). -/
theorem readControlReturnsBitsByKind : Obligations.ReadControlReturnsBitsByKind := by
  intro cond rd s hr hs
  have hl : (readOf 1 0 0).isListed = true := by decide
  have hp : Passes (.mrcControl cond rd) s := passes_of_listed hs hr hl rfl
  have hexec : exec (.mrcControl cond rd) s = .next (s.deliverDrawn .c1 s.controlWord rd) := admitted_of_passes hp _
  refine ⟨s.drawnWord .c1 s.controlWord, s.draws + 1, fun bit => ?_, ?_⟩
  · obtain ⟨-, -, hv⟩ := readControl_next hexec
    rw [← hv]
    exact readControl_getLsbD hexec bit
  · rw [hexec, s.deliverDrawn_eq .c1 _ hr]
    rfl

/-! ### The write (R141) -/

/-- The check of register 1's reserved field in terms of bits [31:16] (10_state.md R75). -/
theorem State.reservedFieldOk_c1_iff (s : State) (w : Word) :
    s.reservedFieldOk .c1 w = true ↔
      w.extractLsb' 16 16 = 0 ∨
        ∃ v, s.cp15.lastRead.c1 = some v ∧ w.extractLsb' 16 16 = v.extractLsb' 16 16 := by
  have hzero : w.extractLsb' 16 16 = 0 ↔ w &&& reservedMask s.cfg .c1 = 0 &&& reservedMask s.cfg .c1 :=
    reservedMask_c1_field s.cfg w 0
  simp only [State.reservedFieldOk_iff, hzero, reservedMask_c1_field s.cfg w]
  rfl

/-- In a state that admits accesses a write of the control register is refused where its reserved field is not
admitted. -/
theorem writeControl_of_not_reservedFieldOk {cond rd : BitVec 4} {s : State} (hs : s.CanAccess) (hrd : rd.toNat < 15)
    (hw : ¬ s.reservedFieldOk .c1 (s.readX rd) = true) :
    exec (.mcrControl cond rd) s = .refused .sbzpFieldWritten := by
  have hl : (writeOf 1 0 0).isListed = true := by decide
  have hp : Passes (.mcrControl cond rd) s := passes_of_listed hs hrd hl rfl
  exact (admitted_of_passes hp _).trans (if_neg hw)

/-- Settles O5: the two cases are the two answers of the check of bits [31:16] (`State.reservedFieldOk_c1_iff`). -/
theorem writeControlWritesTheRwBits : Obligations.WriteControlWritesTheRwBits := by
  intro cond rd s hrd hs
  constructor
  · intro hfield
    exact ⟨_, _, s.cp15.getLsbD_writeControl s.cfg (s.readX rd),
      writeControl_of_reservedFieldOk hs hrd ((s.reservedFieldOk_c1_iff _).mpr hfield)⟩
  · intro hne hlast
    refine writeControl_of_not_reservedFieldOk hs hrd fun hok => ?_
    rcases (s.reservedFieldOk_c1_iff _).mp hok with hz | ⟨v, hv, he⟩
    · exact hne hz
    · exact hlast v hv he

/-! ### What is seen after a write (R140, R142) -/

/-- Settles O6: a held bit is seen by its kind, and an `rw` one holds the written bit
(`writeControl_outputs_getLsbD`). -/
theorem writtenControlBitsAreExported : Obligations.WrittenControlBitsAreExported :=
  fun _ _ _ _ h bit => writeControl_outputs_getLsbD h bit

/-- A read of the control register returns each control bit as the rest of the system sees it (R140, R142). -/
theorem readControl_getLsbD_eq_outputs {cond rd : BitVec 4} {s t : State}
    (h : exec (.mrcControl cond rd) s = .next t) (bit : ControlBit) :
    (t.readX rd).getLsbD bit.index = s.outputs.control.getLsbD bit.index :=
  (readControl_getLsbD h bit).trans (getLsbD_controlValue_eq_seenAs s.cfg s.cp15.c1 bit).symm

/-- Settles O8: the read returns what the system sees after the write. -/
theorem controlReadsBackAsWritten : Obligations.ControlReadsBackAsWritten :=
  fun _ _ _ _ _ _ _ hwrite hread bit =>
    (readControl_getLsbD_eq_outputs hread bit).trans (writeControl_outputs_getLsbD hwrite bit)

/-! ### The register a write changes (R141, R151, R153, R164, R180, R181) -/

/-- The write of a tuple leaves the registers of the other tuples alone. -/
theorem WrittenAs.other_registers {s : State} {w : Word} {a : Access} {c : Cp15} (h : WrittenAs s w a c) :
    (a ≠ writeOf 1 0 0 → c.c1 = s.cp15.c1) ∧ (a ≠ writeOf 2 0 0 → c.ttb = s.cp15.ttb) ∧
      (a ≠ writeOf 3 0 0 → c.dacr = s.cp15.dacr) ∧ (a ≠ writeOf 12 0 0 → c.vbase = s.cp15.vbase) ∧
      (a ≠ writeOf 13 0 0 → c.pid = s.cp15.pid) := by
  cases h with
  | control => exact ⟨absurd rfl, fun _ => rfl, fun _ => rfl, fun _ => rfl, fun _ => rfl⟩
  | ttb => exact ⟨fun _ => rfl, absurd rfl, fun _ => rfl, fun _ => rfl, fun _ => rfl⟩
  | dacr => exact ⟨fun _ => rfl, fun _ => rfl, absurd rfl, fun _ => rfl, fun _ => rfl⟩
  | vbase => exact ⟨fun _ => rfl, fun _ => rfl, fun _ => rfl, absurd rfl, fun _ => rfl⟩
  | pid => exact ⟨fun _ => rfl, fun _ => rfl, fun _ => rfl, fun _ => rfl, absurd rfl⟩
  | itlbAll | itlbEntry | dtlbAll | dtlbEntry | tlbAll | tlbEntry =>
    exact ⟨fun _ => rfl, fun _ => rfl, fun _ => rfl, fun _ => rfl, fun _ => rfl⟩

/-- No write changes a fault register (R164). -/
theorem WrittenAs.fault_registers {s : State} {w : Word} {a : Access} {c : Cp15} (h : WrittenAs s w a c) :
    c.dfsr = s.cp15.dfsr ∧ c.ifsr = s.cp15.ifsr ∧ c.dfar = s.cp15.dfar ∧ c.ifar = s.cp15.ifar := by
  cases h <;> exact ⟨rfl, rfl, rfl, rfl⟩

/-- Settles O58: a read changes no register, and a write only the one its tuple names. -/
theorem onlyItsOwnWriteChangesARegister : Obligations.OnlyItsOwnWriteChangesARegister := by
  intro i s t h
  rcases exec_next_by_access h with ⟨-, hcp⟩ | ⟨c, hw, rfl⟩
  · rw [hcp]
    exact ⟨fun _ => rfl, fun _ => rfl, fun _ => rfl, fun _ => rfl, fun _ => rfl, rfl, rfl, rfl, rfl⟩
  · obtain ⟨hc1, httb, hdacr, hvbase, hpid⟩ := hw.other_registers
    exact ⟨hc1, httb, hdacr, hvbase, hpid, hw.fault_registers⟩

end Sys2Proof.Machine
end

section
/-!
PROOFS. Family 42_c2_c3_translation.md: what a read of the translation table base delivers (R150) and a write of it does
(R151), and the same for the domain access control register (R152, R153).
-/
namespace Sys2Proof.Machine

/-! ### The checks before the access -/

/-- With an MMU every register but 12 and 13 is present (30_encoding.md R117). -/
theorem registerPresent_of_mmu {cfg : Config} (hm : cfg.memsys = .mmu) {crn : BitVec 4} (h12 : crn ≠ 12)
    (h13 : crn ≠ 13) : registerPresent cfg crn = true := by
  by_cases h01 : crn = 0 ∨ crn = 1
  · exact if_pos h01
  · rw [registerPresent, if_neg h01, if_neg h12, if_neg h13]
    exact beq_mmu hm

/-- With an MMU a listed access to a register other than 12 and 13 passes the checks where accesses do. -/
theorem passes_of_mmu {i : Instr} {s : State} (hs : s.CanAccess) (hm : s.cfg.memsys = .mmu) (hr : i.rd.toNat < 15)
    (hl : i.access.isListed = true) (h12 : i.access.crn ≠ 12) (h13 : i.access.crn ≠ 13) : Passes i s :=
  passes_of_listed hs hr hl (registerPresent_of_mmu hm h12 h13)

/-! ### Register 2 (R150, R151) -/

/-- A read of a register with a reserved field, past the checks: the drawn word goes to `Rd` and to the ghost, and
nothing else but the program counter and the counter of draws changes. -/
theorem admitted_deliverDrawn {i : Instr} {s : State} (h : Passes i s) (r : ReservedReg) (held : Word) :
    admitted i s (.next (s.deliverDrawn r held i.rd)) = .next
      { s with
        regs := s.regs.set i.rd.toNat (s.drawnWord r held) h.rd
        pc := s.pc + 4
        draws := s.draws + 1
        cp15 := { s.cp15 with lastRead := s.cp15.lastRead.set r (s.drawnWord r held) } } := by
  rw [admitted_of_passes h, State.deliverDrawn_eq s r held h.rd]

/-- The base bits of register 2 stand outside its reserved field (10_state.md R58, R75). -/
theorem reservedMask_ttb_bit (cfg : Config) {n : Nat} (h : cfg.ttbLowBits ≤ n) :
    (reservedMask cfg .ttb).getLsbD n = false := by
  by_cases hn : n < 32
  · exact (getLsbD_ttbLowMask cfg hn).trans (decide_eq_false (Nat.not_lt.mpr h))
  · exact BitVec.getLsbD_of_ge _ _ (Nat.le_of_not_lt hn)

/-- Settles O9: the checks pass, and outside the reserved field the word delivered is the one held. -/
theorem readTtbReturnsTheBase : Obligations.ReadTtbReturnsTheBase := by
  intro cond rd s hr hs hm
  have hp : Passes (.mrcTtb cond rd) s := passes_of_mmu hs hm hr rfl nofun nofun
  exact ⟨s.drawnWord .ttb s.cp15.ttb, s.draws + 1,
    fun n hn => s.getLsbD_drawnWord .ttb _ (reservedMask_ttb_bit s.cfg hn),
    admitted_deliverDrawn hp .ttb s.cp15.ttb⟩

/-- The check of register 2's reserved field in terms of its low bits (10_state.md R75). -/
theorem State.reservedFieldOk_ttb_iff (s : State) (w : Word) :
    s.reservedFieldOk .ttb w = true ↔
      (∀ n < s.cfg.ttbLowBits, w.getLsbD n = false) ∨
        ∃ v, s.cp15.lastRead.ttb = some v ∧ ∀ n < s.cfg.ttbLowBits, w.getLsbD n = v.getLsbD n := by
  have hzero : (∀ n < s.cfg.ttbLowBits, w.getLsbD n = false) ↔
      w &&& reservedMask s.cfg .ttb = 0 &&& reservedMask s.cfg .ttb := by
    simpa using reservedMask_ttb_field s.cfg w 0
  simp only [State.reservedFieldOk_iff, hzero, reservedMask_ttb_field s.cfg w]
  rfl

/-- Settles O10: the two cases are the two answers of the check of the low bits (`State.reservedFieldOk_ttb_iff`). -/
theorem writeTtbWritesTheBase : Obligations.WriteTtbWritesTheBase := by
  intro cond rd s hr hs hm
  have hp : Passes (.mcrTtb cond rd) s := passes_of_mmu hs hm hr rfl nofun nofun
  constructor
  · intro hlow
    exact ⟨_, _, s.cp15.getLsbD_writeTtb s.cfg (s.readX rd),
      (admitted_of_passes hp _).trans (if_pos ((s.reservedFieldOk_ttb_iff _).mpr hlow))⟩
  · rintro ⟨n, hn, hset⟩ hlast
    refine (admitted_of_passes hp _).trans (if_neg fun hok => ?_)
    rcases (s.reservedFieldOk_ttb_iff _).mp hok with hzero | ⟨v, hv, heq⟩
    · exact Bool.false_ne_true ((hzero n hn).symm.trans hset)
    · obtain ⟨m, hlt, hne⟩ := hlast v hv
      exact hne (heq m hlt)

/-! ### Register 3 (R152, R153) -/

/-- Settles O11: the checks pass, and the meaning delivers DACR. -/
theorem readDacrMovesAllBits : Obligations.ReadDacrMovesAllBits := by
  intro cond rd s hr hs hm
  have hp : Passes (.mrcDacr cond rd) s := passes_of_mmu hs hm hr rfl nofun nofun
  exact admitted_deliver hp s.cp15.dacr

/-- Settles O12: the two cases are the two answers of the check of the sixteen fields (`hasReservedDomain_iff`). -/
theorem writeDacrUnlessAFieldIsReserved : Obligations.WriteDacrUnlessAFieldIsReserved := by
  intro cond rd s hr hs hm
  have hp : Passes (.mcrDacr cond rd) s := passes_of_mmu hs hm hr rfl nofun nofun
  constructor
  · intro hfield
    exact (admitted_of_passes hp _).trans (if_pos ((hasReservedDomain_iff _).mpr hfield))
  · intro hfields
    refine ⟨_, (admitted_of_passes hp _).trans (if_neg fun hres => ?_)⟩
    obtain ⟨n, hn, hfield⟩ := (hasReservedDomain_iff _).mp hres
    exact hfields n hn hfield

end Sys2Proof.Machine
end

section
/-!
PROOFS. Family 43_c5_c6_fault.md: what a read of a fault status register delivers (R160, R161) and what a read of a
fault address register does (R162, R163).
-/
namespace Sys2Proof.Machine

/-! ### Register 5 (R160, R161) -/

/-- Low bits that stand outside the reserved field are delivered as they are held (10_state.md R75). -/
theorem State.extractLsb'_drawnWord (s : State) (r : ReservedReg) (held : Word) {n : Nat}
    (h : ∀ i < n, (reservedMask s.cfg r).getLsbD i = false) :
    (s.drawnWord r held).extractLsb' 0 n = held.extractLsb' 0 n := by
  apply BitVec.eq_of_getLsbD_eq
  intro i hi
  simp only [BitVec.getLsbD_extractLsb', Nat.zero_add, s.getLsbD_drawnWord r held (h i hi)]

/-- Bits [8:0] of a fault status register's word: [8] is 0, [7:4] the domain, [3:0] the status (10_state.md R62). -/
theorem Fsr.extractLsb'_word (f : Fsr) : f.word.extractLsb' 0 9 = 0#1 ++ f.domain ++ f.status := by
  apply BitVec.eq_of_getLsbD_eq
  intro i hi
  rw [BitVec.getLsbD_extractLsb', Nat.zero_add, Fsr.word]
  -- both sides pick a field by position; above the domain both hold zeros
  rw [BitVec.getLsbD_append, BitVec.getLsbD_append, BitVec.getLsbD_append, BitVec.getLsbD_append,
    BitVec.getLsbD_zero, BitVec.getLsbD_zero, decide_eq_true hi, Bool.true_and]

/-- Settles O13: the checks pass, and bits [8:0] of the word delivered are those of DFSR. -/
theorem readDataFaultStatus : Obligations.ReadDataFaultStatus := by
  intro cond rd s hr hs hm
  have hp : Passes (.mrcDfsr cond rd) s := passes_of_mmu hs hm hr rfl nofun nofun
  have hlow := s.extractLsb'_drawnWord .dfsr s.cp15.dfsr.word fun _ => reservedMask_dfsr_bit s.cfg
  exact ⟨_, s.draws + 1, hlow.trans s.cp15.dfsr.extractLsb'_word, admitted_deliverDrawn hp .dfsr s.cp15.dfsr.word⟩

/-- Settles O14: the checks pass, and bits [8:0] of the word delivered are those of IFSR. -/
theorem readInstructionFaultStatus : Obligations.ReadInstructionFaultStatus := by
  intro cond rd s hr hs hm
  have hp : Passes (.mrcIfsr cond rd) s := passes_of_mmu hs hm hr rfl nofun nofun
  have hlow := s.extractLsb'_drawnWord .ifsr s.cp15.ifsr.word fun _ => reservedMask_ifsr_bit s.cfg
  exact ⟨_, s.draws + 1, hlow.trans s.cp15.ifsr.extractLsb'_word, admitted_deliverDrawn hp .ifsr s.cp15.ifsr.word⟩

/-! ### Register 6 (R162, R163) -/

/-- Settles O15: the checks pass for either read, and the meaning delivers DFAR or IFAR. -/
theorem readFaultAddressMovesTheAddress : Obligations.ReadFaultAddressMovesTheAddress := by
  intro cond rd s hr hs hm
  have hdfar : Passes (.mrcDfar cond rd) s := passes_of_mmu hs hm hr rfl nofun nofun
  have hifar : Passes (.mrcIfar cond rd) s := passes_of_mmu hs hm hr rfl nofun nofun
  exact ⟨admitted_deliver hdfar s.cp15.dfar, admitted_deliver hifar s.cp15.ifar⟩

end Sys2Proof.Machine
end

section
/-!
PROOFS. Family 44_c8_tlb.md: what the whole-TLB operations (R170, R172, R174) and the single-entry operations (R171, R173,
R175) leave in the TLBs, and that no other access changes one (R176).
-/
namespace Sys2Proof.Machine

/-! ### The checks and the whole-TLB operations (R170, R172, R174) -/

/-- With an MMU the listed operations of register 8 pass the checks where accesses do (30_encoding.md R117). -/
theorem passes_of_register8 {i : Instr} {s : State} (hs : s.CanAccess) (hm : s.cfg.memsys = .mmu) (hr : i.rd.toNat < 15)
    (hl : i.access.isListed = true) (h8 : i.access.crn = 8) : Passes i s :=
  passes_of_mmu hs hm hr hl (by rw [h8]; decide) (by rw [h8]; decide)

/-- Past the checks a whole-TLB operation with 0 in `Rd` leaves CP15 as its rule says. -/
theorem admitted_wholeTlb_of_zero {i : Instr} {s : State} (hp : Passes i s) (h0 : s.readX i.rd = 0) (c : Cp15) :
    admitted i s (wholeTlb s i.rd c) = .next (s.commit c) :=
  (admitted_of_passes hp _).trans (if_pos h0)

/-- Past the checks a whole-TLB operation with anything else in `Rd` is refused (92_eei_decisions.md D11). -/
theorem admitted_wholeTlb_of_ne_zero {i : Instr} {s : State} (hp : Passes i s) (h0 : s.readX i.rd ≠ 0) (c : Cp15) :
    admitted i s (wholeTlb s i.rd c) = .refused .tlbRdNotZero :=
  (admitted_of_passes hp _).trans (if_neg h0)

/-- Settles O16: the checks pass for the three operations, and the two cases are the two answers of the check of `Rd`. -/
theorem wholeTlbOperationsEmptyTheirTlbs : Obligations.WholeTlbOperationsEmptyTheirTlbs := by
  intro cond rd s hr hs hm
  have hitlb : Passes (.mcrItlbAll cond rd) s := passes_of_register8 hs hm hr rfl rfl
  have hdtlb : Passes (.mcrDtlbAll cond rd) s := passes_of_register8 hs hm hr rfl rfl
  have hboth : Passes (.mcrTlbAll cond rd) s := passes_of_register8 hs hm hr rfl rfl
  constructor
  · intro h0
    exact ⟨⟨_, admitted_wholeTlb_of_zero hitlb h0 _⟩, ⟨_, admitted_wholeTlb_of_zero hdtlb h0 _⟩,
      ⟨_, admitted_wholeTlb_of_zero hboth h0 _⟩⟩
  · intro h0
    exact ⟨admitted_wholeTlb_of_ne_zero hitlb h0 _, admitted_wholeTlb_of_ne_zero hdtlb h0 _,
      admitted_wholeTlb_of_ne_zero hboth h0 _⟩

/-! ### The single-entry operations (R171, R173, R175) -/

theorem Tlb.mem_without (t : Tlb) (va : Word) (e : TlbEntry) : e ∈ t.without va ↔ e ∈ t ∧ e.covers va = false := by
  rw [Tlb.without, List.mem_filter, Bool.not_eq_true']

/-- Settles O17: the checks pass for the three operations, and the entries left are those of `Tlb.mem_without`. -/
theorem singleEntryOperationsKeepTheOthers : Obligations.SingleEntryOperationsKeepTheOthers := by
  intro cond rd s hr hs hm
  have hitlb : Passes (.mcrItlbEntry cond rd) s := passes_of_register8 hs hm hr rfl rfl
  have hdtlb : Passes (.mcrDtlbEntry cond rd) s := passes_of_register8 hs hm hr rfl rfl
  have hboth : Passes (.mcrTlbEntry cond rd) s := passes_of_register8 hs hm hr rfl rfl
  exact ⟨_, _, s.cp15.itlb.mem_without (s.readX rd), s.cp15.dtlb.mem_without (s.readX rd),
    ⟨_, admitted_of_passes hitlb _⟩, ⟨_, admitted_of_passes hdtlb _⟩, ⟨_, admitted_of_passes hboth _⟩⟩

/-! ### The other accesses (R151, R153, R176) -/

/-- The write of a tuple of another register than 8 leaves both TLBs alone. -/
theorem WrittenAs.tlbs_eq {s : State} {w : Word} {a : Access} {c : Cp15} (h : WrittenAs s w a c) (h8 : a.crn ≠ 8) :
    c.itlb = s.cp15.itlb ∧ c.dtlb = s.cp15.dtlb := by
  cases h with
  | control | ttb | dacr | vbase | pid => exact ⟨rfl, rfl⟩
  | itlbAll | itlbEntry | dtlbAll | dtlbEntry | tlbAll | tlbEntry => exact absurd rfl h8

/-- Settles O18: a read changes only the ghosts, and a write of another register than 8 leaves both TLBs alone. -/
theorem onlyRegister8ChangesTheTlbs : Obligations.OnlyRegister8ChangesTheTlbs := by
  intro i s t h h8
  rcases exec_next_by_access h with ⟨-, hcp⟩ | ⟨c, hw, rfl⟩
  · rw [hcp]
    exact ⟨rfl, rfl⟩
  · exact hw.tlbs_eq h8

end Sys2Proof.Machine
end

section
/-!
PROOFS. Family 45_c12_c13_vector_pid.md: what a write of the vector base does (R180), and what a write (R181) and a read
(R182) of the process identifier do.
-/
namespace Sys2Proof.Machine

/-! ### Register 12 (R180) -/

/-- The check of register 12's reserved field asks for zero: register 12 has no read form, hence no word last read
(10_state.md R75). -/
theorem State.reservedFieldOk_vbase_iff (s : State) (w : Word) :
    s.reservedFieldOk .vbase w = true ↔ w.extractLsb' 0 5 = 0 := by
  have hzero : w.extractLsb' 0 5 = 0 ↔ w &&& reservedMask s.cfg .vbase = 0 &&& reservedMask s.cfg .vbase :=
    reservedMask_vbase_field s.cfg w 0
  simp only [State.reservedFieldOk_iff, hzero, LastRead.get, reduceCtorEq, false_and, exists_false, or_false]

/-- Settles O19: the checks pass, and the two cases are the two answers of the check of bits [4:0]
(`State.reservedFieldOk_vbase_iff`). -/
theorem writeVectorBaseIsAMultipleOf32 : Obligations.WriteVectorBaseIsAMultipleOf32 := by
  intro cond rd s hr hs hv
  have hp : Passes (.mcrVbase cond rd) s := passes_of_listed hs hr rfl hv
  constructor
  · intro hzero
    exact ⟨_, (admitted_of_passes hp _).trans (if_pos ((s.reservedFieldOk_vbase_iff _).mpr hzero))⟩
  · intro hne
    exact (admitted_of_passes hp _).trans (if_neg fun hok => hne ((s.reservedFieldOk_vbase_iff _).mp hok))

/-! ### Register 13 (R181, R182) -/

/-- The check of register 13's reserved field in terms of bits [24:0] (10_state.md R75). -/
theorem State.reservedFieldOk_pid_iff (s : State) (w : Word) :
    s.reservedFieldOk .pid w = true ↔
      w.extractLsb' 0 25 = 0 ∨
        ∃ v, s.cp15.lastRead.pid = some v ∧ w.extractLsb' 0 25 = v.extractLsb' 0 25 := by
  have hzero : w.extractLsb' 0 25 = 0 ↔ w &&& reservedMask s.cfg .pid = 0 &&& reservedMask s.cfg .pid :=
    reservedMask_pid_field s.cfg w 0
  simp only [State.reservedFieldOk_iff, hzero, reservedMask_pid_field s.cfg w]
  rfl

/-- Settles O20: the checks pass, and the two cases are the two answers of the check of bits [24:0]
(`State.reservedFieldOk_pid_iff`). -/
theorem writePidSetsTheIdentifier : Obligations.WritePidSetsTheIdentifier := by
  intro cond rd s hr hs hpid
  have hp : Passes (.mcrPid cond rd) s := passes_of_listed hs hr rfl hpid
  constructor
  · intro hfield
    exact ⟨_, (admitted_of_passes hp _).trans (if_pos ((s.reservedFieldOk_pid_iff _).mpr hfield))⟩
  · intro hne hlast
    refine (admitted_of_passes hp _).trans (if_neg fun hok => ?_)
    rcases (s.reservedFieldOk_pid_iff _).mp hok with hzero | ⟨v, hv, heq⟩
    · exact hne hzero
    · exact hlast v hv heq

/-- The identifier stands outside the reserved field of register 13 (10_state.md R66, R75). -/
theorem reservedMask_pid_bit (cfg : Config) {n : Nat} (h : 25 ≤ n) : (reservedMask cfg .pid).getLsbD n = false := by
  by_cases hn : n < 32
  · show BitVec.getLsbD 0x01FFFFFF#32 n = false
    interval_cases n <;> rfl
  · exact BitVec.getLsbD_of_ge _ _ (Nat.le_of_not_lt hn)

/-- Bits [31:25] of register 13's word are the identifier (10_state.md R66). -/
theorem extractLsb'_pidWord (pid : BitVec 7) : (pidWord pid).extractLsb' 25 7 = pid :=
  BitVec.extractLsb'_append_eq_left

/-- Settles O21: the checks pass, and outside the reserved field the word delivered is the one held. -/
theorem readPidReturnsTheIdentifier : Obligations.ReadPidReturnsTheIdentifier := by
  intro cond rd s hr hs hpid
  have hp : Passes (.mrcPid cond rd) s := passes_of_listed hs hr rfl hpid
  have hheld : (s.drawnWord .pid (pidWord s.cp15.pid)).extractLsb' 25 7 = (pidWord s.cp15.pid).extractLsb' 25 7 :=
    (extract_eq_extract_iff _ _ 25 7).mpr fun n hn _ =>
      s.getLsbD_drawnWord .pid _ (reservedMask_pid_bit s.cfg hn)
  exact ⟨_, s.draws + 1, hheld.trans (extractLsb'_pidWord _), admitted_deliverDrawn hp .pid _⟩

end Sys2Proof.Machine
end

section
/-!
PROOFS. Family 46_other_registers.md: the rules that refuse every form of a register (R190 to R193), each with its reason.
-/
namespace Sys2Proof.Machine

/-! ### Every form of a claimed register is refused -/

/-- The registers that R118 lists, in the order of `not_claimedWhole`. -/
theorem Access.crn_of_isListed {a : Access} (hl : a.isListed = true) :
    a.crn = 0 ∨ a.crn = 1 ∨ a.crn = 13 ∨ a.crn = 12 ∨ a.crn = 2 ∨ a.crn = 3 ∨ a.crn = 5 ∨ a.crn = 6 ∨ a.crn = 8 := by
  obtain ⟨r, hr, rfl, -⟩ := find_of_isListed hl
  have rows : ∀ r ∈ admittedRows, r.1.crn = 0 ∨ r.1.crn = 1 ∨ r.1.crn = 13 ∨ r.1.crn = 12 ∨ r.1.crn = 2 ∨
      r.1.crn = 3 ∨ r.1.crn = 5 ∨ r.1.crn = 6 ∨ r.1.crn = 8 := by decide
  exact rows r hr

/-- Registers 2, 3, 5, 6 and 8 are present only with an MMU (30_encoding.md R117). -/
theorem mmu_of_registerPresent {cfg : Config} {crn : BitVec 4} (hp : registerPresent cfg crn = true)
    (h : crn = 2 ∨ crn = 3 ∨ crn = 5 ∨ crn = 6 ∨ crn = 8) : cfg.memsys = .mmu := by
  rcases h with rfl | rfl | rfl | rfl | rfl <;> exact eq_of_beq hp

/-- No configuration admits an access to a register that a rule about whole registers claims under it. -/
theorem not_claimedWhole_of_admits {cfg : Config} {a : Access} (h : admits cfg a = true) :
    ¬ ClaimedWhole cfg a.crn := by
  obtain ⟨hl, hp⟩ := Bool.and_eq_true_iff.mp h
  apply not_claimedWhole
  rcases Access.crn_of_isListed hl with h | h | h | h | h
  · exact .inl h
  · exact .inr (.inl h)
  · exact .inr (.inr (.inl h))
  · rw [h] at hp
    exact .inr (.inr (.inr (.inl ⟨h, hp⟩)))
  · exact .inr (.inr (.inr (.inr ⟨h, mmu_of_registerPresent hp h⟩)))

/-- An access to a register that a rule about whole registers claims is refused, for the reason of `refusalOf`. -/
theorem exec_of_claimedWhole {i : Instr} {s : State} (hs : s.CanAccess) (hr : i.rd ≠ 15)
    (hw : ClaimedWhole s.cfg i.access.crn) : exec i s = .refused (refusalOf s.cfg i.access) :=
  exec_of_not_admits hs hr (Bool.eq_false_iff.mpr fun ha => not_claimedWhole_of_admits ha hw)

/-! ### What the rules claim, and that they claim no register twice -/

theorem isReservedRegister_iff (cfg : Config) (crn : BitVec 4) :
    isReservedRegister cfg crn = true ↔
      crn = 4 ∨ crn = 11 ∨ crn = 14 ∨ (crn = 12 ∧ cfg.hasVbar = false) ∨
        ((crn = 8 ∨ crn = 10) ∧ cfg.memsys = .pu) := by
  simp [isReservedRegister, or_assoc]

theorem isFormWithoutMmu_iff (cfg : Config) (crn : BitVec 4) :
    isFormWithoutMmu cfg crn = true ↔
      ((crn = 2 ∨ crn = 3 ∨ crn = 5 ∨ crn = 6) ∧ cfg.memsys ≠ .mmu) ∨
        ((crn = 8 ∨ crn = 10) ∧ cfg.memsys = .none) := by
  simp [isFormWithoutMmu, or_assoc]

/-- R190 and R193 share registers 8 and 10 alone, and there R190 asks for a protection unit and R193 for none. -/
theorem not_isReservedRegister_of_isFormWithoutMmu {cfg : Config} {crn : BitVec 4}
    (h : isFormWithoutMmu cfg crn = true) : ¬ isReservedRegister cfg crn = true := by
  rw [isReservedRegister_iff]
  rcases (isFormWithoutMmu_iff cfg crn).mp h with ⟨hcrn, -⟩ | ⟨hcrn, hm⟩
  · rcases hcrn with rfl | rfl | rfl | rfl <;> simp
  · rcases hcrn with rfl | rfl <;> simp [hm]

/-- Neither R190 nor R193 claims registers 7, 9 and 15, nor register 10 in a system with an MMU. -/
theorem not_reserved_not_formWithoutMmu {cfg : Config} {crn : BitVec 4}
    (h : crn = 7 ∨ crn = 9 ∨ crn = 15 ∨ (crn = 10 ∧ cfg.memsys = .mmu)) :
    ¬ isReservedRegister cfg crn = true ∧ ¬ isFormWithoutMmu cfg crn = true := by
  rw [isReservedRegister_iff, isFormWithoutMmu_iff]
  rcases h with rfl | rfl | rfl | ⟨rfl, hm⟩
  · simp
  · simp
  · simp
  · simp [hm]

/-! ### The refusals (R190 to R193) -/

/-- Settles O25: the registers are R190's, whose reason comes first in `refusalOf`. -/
theorem reservedRegistersAreRefused : Obligations.ReservedRegistersAreRefused := by
  intro i s hs hr hreg
  have hres : isReservedRegister s.cfg i.access.crn = true := (isReservedRegister_iff _ _).mpr hreg
  rw [exec_of_claimedWhole hs hr (.inl hres), refusalOf, if_pos hres]

/-- Settles O26: R190 and R193, which come before R191 in `refusalOf`, leave these registers to it. -/
theorem undescribedRegistersAreRefused : Obligations.UndescribedRegistersAreRefused := by
  intro i s hs hr hreg
  obtain ⟨hres, hform⟩ := not_reserved_not_formWithoutMmu (hreg.imp_right (Or.imp_right .inr))
  have hund : i.access.crn = 7 ∨ i.access.crn = 9 ∨ i.access.crn = 10 := hreg.imp_right (Or.imp_right And.left)
  rw [exec_of_claimedWhole hs hr (.inr (.inr (.inl hund))), refusalOf, if_neg hres, if_neg hform, if_pos hund]

/-- Settles O28: the registers are R193's, and R190, which comes before it in `refusalOf`, claims none of them here. -/
theorem formsWithoutAnMmuAreRefused : Obligations.FormsWithoutAnMmuAreRefused := by
  intro i s hs hr hreg
  have hform : isFormWithoutMmu s.cfg i.access.crn = true := (isFormWithoutMmu_iff _ _).mpr hreg
  have hres := not_isReservedRegister_of_isFormWithoutMmu hform
  rw [exec_of_claimedWhole hs hr (.inr (.inl hform)), refusalOf, if_neg hres, if_pos hform]

/-- Settles O27: no other rule about whole registers claims register 15. -/
theorem register15IsRefused : Obligations.Register15IsRefused := by
  intro i s hs hr h15
  obtain ⟨hres, hform⟩ := not_reserved_not_formWithoutMmu (cfg := s.cfg) (.inr (.inr (.inl h15)))
  have hund : ¬(i.access.crn = 7 ∨ i.access.crn = 9 ∨ i.access.crn = 10) := by rw [h15]; decide
  rw [exec_of_claimedWhole hs hr (.inr (.inr (.inr h15))), refusalOf, if_neg hres, if_neg hform, if_neg hund,
    if_pos h15]

end Sys2Proof.Machine
end

section
/-!
PROOFS. Family 60_exceptions.md: what the memory system agent records of a fault (R200 to R206), which cause it chooses
(R203, R212), what it does not record (R209), and what an access without privilege does (R216).
-/
namespace Sys2Proof.Machine

/-! ### Which causes can arise (R209) -/

theorem State.domainMayRestrict_iff (s : State) (n : BitVec 4) :
    s.domainMayRestrict n = true ↔ ∃ d ∈ s.cp15.dacr :: s.cp15.window.dacr, domainField d n ≠ 0b11 := by
  simp [State.domainMayRestrict]

section
variable {s : State} {k : FaultCause} {domain : BitVec 4} {address : Word}

/-- Causes 4 to 11 need M = 1. -/
theorem bitMayGovern_m_of_faultMayArise (h : s.faultMayArise k domain address = true) (hlo : 4 ≤ k.number)
    (hhi : k.number ≤ 11) : s.bitMayGovern .m true = true := by
  cases k with
  | firstLevelAccess | secondLevelAccess | sectionTranslation | pageTranslation => exact h
  | sectionDomain | pageDomain | sectionPermission | pagePermission => exact (Bool.and_eq_true_iff.mp h).1
  | terminal | vector | alignment => exact absurd hlo (by decide)
  | sectionLineFetch | pageLineFetch | sectionNonLineFetch | pageNonLineFetch => exact absurd hhi (by decide)

/-- Causes 8 to 11 need a domain that may restrict the access. -/
theorem domainMayRestrict_of_faultMayArise (h : s.faultMayArise k domain address = true) (hlo : 8 ≤ k.number)
    (hhi : k.number ≤ 11) : s.domainMayRestrict domain = true := by
  cases k with
  | sectionDomain | pageDomain | sectionPermission | pagePermission => exact (Bool.and_eq_true_iff.mp h).2
  | terminal | vector | alignment | firstLevelAccess | secondLevelAccess | sectionTranslation | pageTranslation =>
    exact absurd hlo (by decide)
  | sectionLineFetch | pageLineFetch | sectionNonLineFetch | pageNonLineFetch => exact absurd hhi (by decide)

/-- Cause 3 needs a misaligned address and A = 1 (log entry 37). -/
theorem misaligned_of_faultMayArise (h : s.faultMayArise k domain address = true) (hk : k.number = 3) :
    address.extractLsb' 0 2 ≠ 0 ∧ s.bitMayGovern .a true = true := by
  obtain rfl : k = .alignment := FaultCause.number_injective hk
  simpa [State.faultMayArise] using h

/-! ### The step of a fault -/

/-- Without an MMU every fault is refused (log entry 20). -/
theorem faultStep_without_mmu (hm : s.cfg.memsys ≠ .mmu) (side : Side) (causes : List FaultCause)
    (domain : BitVec 4) (address : Word) : faultStep s side causes domain address = .refused .formWithoutMmu :=
  if_pos hm

/-- A record in a domain that may be 0b10 is refused (log entry 21). -/
theorem recordStep_reservedDomain (hv : k.domainValid = true) (hd : s.domainMayGovern domain 0b10 = true) (side : Side)
    (address : Word) : recordStep s side k domain address = .refused .reservedDomainAccessed :=
  if_pos (Bool.and_eq_true_iff.mpr ⟨hv, hd⟩)

theorem not_domain_reserved (hd : k.domainValid = true → s.domainMayGovern domain 0b10 = false) :
    ¬(k.domainValid && s.domainMayGovern domain 0b10) = true := by
  rw [Bool.and_eq_true_iff]
  rintro ⟨hv, hg⟩
  exact Bool.false_ne_true ((hd hv).symm.trans hg)

/-- Where the field cannot be 0b10, a cause with a code is recorded. -/
theorem recordStep_of_code (hd : k.domainValid = true → s.domainMayGovern domain 0b10 = false) {code : FsrCode}
    (hc : s.cfg.fsrCodes.code k = some code) (side : Side) (address : Word) :
    recordStep s side k domain address = .next (s.recordFault side k code domain address) := by
  rw [recordStep, if_neg (not_domain_reserved hd), hc]

/-- Where the field cannot be 0b10, a cause without a code is refused (log entry 22). -/
theorem recordStep_without_code (hd : k.domainValid = true → s.domainMayGovern domain 0b10 = false)
    (hc : s.cfg.fsrCodes.code k = none) (side : Side) (address : Word) :
    recordStep s side k domain address = .refused .causeWithoutCode := by
  rw [recordStep, if_neg (not_domain_reserved hd), hc]

/-- With an MMU a fault of one cause that can arise, its domain not 0b10 where valid, is recorded with its code. -/
theorem memStep_fault_of_code (hm : s.cfg.memsys = .mmu) (ha : s.faultMayArise k domain address = true)
    (hd : k.domainValid = true → s.domainMayGovern domain 0b10 = false) {code : FsrCode}
    (hc : s.cfg.fsrCodes.code k = some code) (side : Side) :
    memStep (.fault side k [] domain address) s = .next (s.recordFault side k code domain address) :=
  (faultStep_singleton hm ha side).trans (recordStep_of_code hd hc side address)

/-- A fault of one cause that can arise, where it answers a next state, has been recorded with the cause's code. -/
theorem memStep_fault_next {side : Side} {t : State} (ha : s.faultMayArise k domain address = true)
    (h : memStep (.fault side k [] domain address) s = .next t) :
    ∃ code, s.cfg.fsrCodes.code k = some code ∧ t = s.recordFault side k code domain address := by
  by_cases hm : s.cfg.memsys = .mmu
  · have hrec : recordStep s side k domain address = .next t := (faultStep_singleton hm ha side).symm.trans h
    obtain ⟨code, hc, -, ht⟩ := recordStep_next hrec
    exact ⟨code, hc, ht⟩
  · cases (faultStep_without_mmu hm side [k] domain address).symm.trans h

/-! ### The choice of the cause (R203) -/

/-- Of causes of which one can arise, one that can arise stands highest in the table. -/
theorem exists_highest_cause {causes : List FaultCause}
    (h : ∃ j ∈ causes, s.faultMayArise j domain address = true) :
    ∃ k ∈ causes, s.faultMayArise k domain address = true ∧
      ∀ j ∈ causes, s.faultMayArise j domain address = true → k.number ≤ j.number := by
  obtain ⟨j, hj, ha⟩ := h
  have hmem : j ∈ causes.filter fun k => s.faultMayArise k domain address := List.mem_filter.mpr ⟨hj, ha⟩
  obtain ⟨first, others, hf⟩ := List.exists_cons_of_ne_nil (List.ne_nil_of_mem hmem)
  obtain ⟨hin, hmin⟩ := FaultCause.highest_spec first others
  rw [← hf] at hin hmin
  obtain ⟨hk, hak⟩ := List.mem_filter.mp hin
  exact ⟨_, hk, hak, fun i hi hai => hmin i (List.mem_filter.mpr ⟨hi, hai⟩)⟩

/-- With an MMU the cause recorded is the one highest in the table of those that can arise. -/
theorem faultStep_eq_recordStep (hm : s.cfg.memsys = .mmu) {causes : List FaultCause} (hk : k ∈ causes)
    (ha : s.faultMayArise k domain address = true)
    (hmin : ∀ j ∈ causes, s.faultMayArise j domain address = true → k.number ≤ j.number) (side : Side) :
    faultStep s side causes domain address = recordStep s side k domain address := by
  have hmem : k ∈ causes.filter fun j => s.faultMayArise j domain address := List.mem_filter.mpr ⟨hk, ha⟩
  rw [faultStep, if_neg (not_not_intro hm)]
  split
  · next hf => exact absurd hmem (hf ▸ List.not_mem_nil)
  · next first others hf =>
    obtain ⟨hin, hle⟩ := FaultCause.highest_spec first others
    rw [← hf] at hin hle
    obtain ⟨hin, hah⟩ := List.mem_filter.mp hin
    rw [FaultCause.number_injective (Nat.le_antisymm (hle k hmem) (hmin _ hin hah))]

/-- What the pair of a kind held does not reach the record that overwrites it (R212). -/
theorem recordStep_recordPair (s : State) (side : Side) (fsr : Fsr) (far : Word) (k : FaultCause) (domain : BitVec 4)
    (address : Word) :
    recordStep { s with cp15 := s.cp15.recordPair side fsr far } side k domain address =
      recordStep s side k domain address := by
  cases side <;> rfl

/-- Whether a cause can arise does not depend on the fault registers. -/
theorem faultMayArise_recordPair (s : State) (side : Side) (fsr : Fsr) (far : Word) (k : FaultCause)
    (domain : BitVec 4) (address : Word) :
    ({ s with cp15 := s.cp15.recordPair side fsr far } : State).faultMayArise k domain address =
      s.faultMayArise k domain address := by
  cases side <;> rfl

theorem faultStep_recordPair {causes : List FaultCause} (h : ∃ j ∈ causes, s.faultMayArise j domain address = true)
    (side : Side) (fsr : Fsr) (far : Word) :
    faultStep { s with cp15 := s.cp15.recordPair side fsr far } side causes domain address =
      faultStep s side causes domain address := by
  by_cases hm : s.cfg.memsys = .mmu
  · obtain ⟨k, hk, ha, hmin⟩ := exists_highest_cause h
    have hsame (j : FaultCause) := faultMayArise_recordPair s side fsr far j domain address
    calc faultStep { s with cp15 := s.cp15.recordPair side fsr far } side causes domain address
      _ = recordStep { s with cp15 := s.cp15.recordPair side fsr far } side k domain address :=
        faultStep_eq_recordStep (s := { s with cp15 := s.cp15.recordPair side fsr far }) hm hk ((hsame k).trans ha)
          (fun j hj hja => hmin j hj ((hsame j).symm.trans hja)) side
      _ = recordStep s side k domain address := recordStep_recordPair s side fsr far k domain address
      _ = faultStep s side causes domain address := (faultStep_eq_recordStep hm hk ha hmin side).symm
  · exact (faultStep_without_mmu (s := { s with cp15 := s.cp15.recordPair side fsr far }) hm _ _ _ _).trans
      (faultStep_without_mmu hm _ _ _ _).symm

end

/-- Settles O36: both steps record the cause `k`, or both are refused for want of an MMU. -/
theorem highestPriorityCauseIsRecorded : Obligations.HighestPriorityCauseIsRecorded := by
  intro side first k others domain address s hk ha hmin
  rw [memStep, memStep]
  by_cases hm : s.cfg.memsys = .mmu
  · rw [faultStep_eq_recordStep hm hk ha hmin, faultStep_singleton hm ha]
  · rw [faultStep_without_mmu hm, faultStep_without_mmu hm]

/-- Settles O37, for either kind: neither the choice of the cause nor its record asks for the pair. -/
theorem laterFaultOverwritesTheRecord : Obligations.LaterFaultOverwritesTheRecord :=
  fun _ _ _ _ _ fsr far h => ⟨faultStep_recordPair h .data fsr far, faultStep_recordPair h .instruction fsr far⟩

/-! ### What is recorded (R200 to R206) -/

/-- Outside the drawn positions the status is the code. -/
theorem statusOf_and_not_drawn (code : FsrCode) (drawn : Word) :
    statusOf code drawn &&& ~~~code.drawn = code.bits &&& ~~~code.drawn :=
  mergeBits_and_not _ _ _

theorem fsrOf_domain {k : FaultCause} (h : k.domainValid = true) (code : FsrCode) (domain : BitVec 4)
    (drawnStatus drawnDomain : Word) : (fsrOf k code domain drawnStatus drawnDomain).domain = domain := if_pos h

theorem farOf_eq_address {k : FaultCause} (h : k.farValid = true) (address drawn : Word) :
    farOf k address drawn = address := if_pos h

/-- Settles O33: the agent's step on its turn records the cause, and the record is R200's. -/
theorem faultIsRecordedInThePairOfItsKind : Obligations.FaultIsRecordedInThePairOfItsKind := by
  intro side k code domain address rest s hv hm hc ha hd ht
  have hstep : step s = .next (({ s with turns := rest } : State).recordFault side k code domain address) :=
    (step_of_memSystem_turn hv ht).trans (memStep_fault_of_code (s := { s with turns := rest }) hm ha hd hc side)
  refine ⟨fsrOf k code domain (Config.freeWord s.draws) (Config.freeWord (s.draws + 1)),
    farOf k address (Config.freeWord (s.draws + 2)), s.draws + 3, statusOf_and_not_drawn code _,
    fun hdom => fsrOf_domain hdom code domain _ _, fun hfar => farOf_eq_address hfar address _, hstep.trans ?_⟩
  cases side <;> rfl

/-- Of the alignment fault's status bits [3:2] and bit 0 are the code's, whatever is drawn for bit 1 (R206). -/
theorem statusOf_alignment (drawn : Word) :
    (statusOf FsrCodes.source.alignment drawn).extractLsb' 2 2 = 0b00 ∧
      (statusOf FsrCodes.source.alignment drawn).getLsbD 0 = true := by
  have h (x : BitVec 4) : (mergeBits 0b0010 x 0b0001).extractLsb' 2 2 = 0b00 ∧
      (mergeBits 0b0010 x 0b0001).getLsbD 0 = true := by
    revert x; decide
  exact h _

/-- Settles O35, row by row: a row's code without an `x` is recorded as it stands, and the domain and the address where
the row calls them valid. -/
theorem recordedFaultIsTheTablesRow : Obligations.RecordedFaultIsTheTablesRow := by
  intro side k domain address s t hsrc ha h r far
  obtain ⟨code, hc, rfl⟩ := memStep_fault_next ha h
  rw [hsrc] at hc
  have hr : r = fsrOf k code domain (Config.freeWord s.draws) (Config.freeWord (s.draws + 1)) := by
    cases side <;> rfl
  have hfar : far = farOf k address (Config.freeWord (s.draws + 2)) := by cases side <;> rfl
  clear_value r far
  subst hr hfar
  cases k with
  | pageNonLineFetch => cases hc
  | terminal => cases hc; exact statusOf_plain _ _
  | alignment =>
    cases hc
    obtain ⟨hhigh, hlow⟩ := statusOf_alignment (Config.freeWord s.draws)
    exact ⟨hhigh, hlow, rfl⟩
  | vector | firstLevelAccess | sectionTranslation => cases hc; exact ⟨statusOf_plain _ _, rfl⟩
  | secondLevelAccess | pageTranslation | sectionDomain | pageDomain | sectionPermission | pagePermission
  | sectionLineFetch | pageLineFetch | sectionNonLineFetch =>
    cases hc; exact ⟨statusOf_plain _ _, rfl, rfl⟩

/-! ### What is not recorded (R209) -/

/-- Settles O34: the excluded causes lack what `faultMayArise` needs of them; the refusals are those of `faultStep` and
`recordStep`. -/
theorem excludedFaultsAreNotRecorded : Obligations.ExcludedFaultsAreNotRecorded := by
  intro side first others domain address s
  refine ⟨fun hm hex => faultStep_of_none hm (fun k hk => Bool.eq_false_iff.mpr fun ha => ?_) side,
    fun hm => faultStep_without_mmu hm _ _ _ _, fun hm ha hv hd => ?_, fun hm ha hc hd => ?_⟩
  · rcases hex k hk with ⟨hlo, hhi, hM⟩ | ⟨hlo, hhi, hfield⟩ | ⟨hthree, halign⟩
    · obtain ⟨c1, hc1, hbit⟩ := (s.bitMayGovern_iff .m true).mp (bitMayGovern_m_of_faultMayArise ha hlo hhi)
      exact Bool.false_ne_true ((hM c1 hc1).symm.trans hbit)
    · obtain ⟨d, hd, hne⟩ := (s.domainMayRestrict_iff domain).mp (domainMayRestrict_of_faultMayArise ha hlo hhi)
      exact hne (hfield d hd)
    · obtain ⟨hmis, hA⟩ := misaligned_of_faultMayArise ha hthree
      rcases halign with h0 | hA0
      · exact hmis h0
      · obtain ⟨c1, hc1, hbit⟩ := (s.bitMayGovern_iff .a true).mp hA
        exact Bool.false_ne_true ((hA0 c1 hc1).symm.trans hbit)
  · exact (faultStep_singleton hm ha side).trans
      (recordStep_reservedDomain hv ((s.domainMayGovern_iff domain 0b10).mpr hd) side address)
  · have hno (hv : first.domainValid = true) : s.domainMayGovern domain 0b10 = false := by
      rw [Bool.eq_false_iff, ne_eq, s.domainMayGovern_iff]
      rintro ⟨d, hmem, hfield⟩
      exact hd hv d hmem hfield
    exact (faultStep_singleton hm ha side).trans (recordStep_without_code hno hc side address)

/-! ### Without privilege (R216) -/

/-- Settles O22: every access makes the checks first, and the privilege is the second of them. -/
theorem unprivilegedAccessIsUndefined : Obligations.UnprivilegedAccessIsUndefined := by
  intro i s hv hp
  obtain ⟨meaning, hm⟩ := exec_admitted i s
  exact hm.trans (admitted_unprivileged hv hp meaning)

/-- An unprivileged core step that answers a next state has only advanced the program counter: its condition failed. -/
theorem coreStep_next_of_unprivileged {s t : State} (hp : s.privileged = false) (h : coreStep s = .next t) :
    t = s.advance := by
  rcases coreStep_next h with ⟨i, hi⟩ | ht
  · obtain ⟨hpass, -⟩ := exec_next hi
    exact absurd (hp.symm.trans hpass.privileged) Bool.false_ne_true
  · exact ht

/-- Settles O59: on either form of the turn the core steps without privilege. -/
theorem unprivilegedCodeCannotChangeCp15 : Obligations.UnprivilegedCodeCannotChangeCp15 := by
  intro s t c rest hturn h
  obtain ⟨hv, -⟩ := step_next h
  rcases hturn with ht | ⟨ht, hp⟩
  · rw [step_of_core_turn hv ht] at h
    obtain rfl := coreStep_next_of_unprivileged rfl h
    exact ⟨rfl, rfl⟩
  · rw [step_of_no_turn hv ht] at h
    obtain rfl := coreStep_next_of_unprivileged hp h
    exact ⟨rfl, rfl⟩

end Sys2Proof.Machine
end
